-- ==== Sys2Proof/Word.lean ====
section
/-! DEFINITION. The word types of the core (10_state.md R20, R25, R27; 30_encoding.md R81). -/

namespace Sys2Proof

/-- A memory byte and a general register's contents: 8 bits, unsigned (R20, R32). -/
abbrev Byte := BitVec 8

/-- An instruction word, `PC`, `I` and `SP`: 16 bits, unsigned (R25, R27, R28, R80). -/
abbrev Word := BitVec 16

/-- The 12-bit address immediate `nnn` (R81). -/
abbrev Imm12 := BitVec 12

/-- A nibble of an instruction word (R8). -/
abbrev Nibble := BitVec 4

/-- A general-register index, 0 to 15 (R20). -/
abbrev Reg := Fin 16

end Sys2Proof
end

