-- ==== Sys2Proof/Config.lean ====
section
/-! DEFINITION. The implementation parameters of 00_scope.md R7, the values it fixes, and the free values.
Every row of R7's table is a field of `Config`, which State carries and no step changes; the rows whose value is OPEN, and the
random-byte source, are free values. -/

namespace Sys2Proof

/-- `FX15_MODE` (R7, R234, C5): what `Fx15` copies into `DT`. -/
inductive Fx15Mode where
  | register   -- DT <- V[x], the value the spec fixes
  | nibble     -- DT <- x
deriving DecidableEq, Repr

/-- `BNNN_MODE` (R7, R118, C1): what the words `Bnnn` decode to. -/
inductive BnnnMode where
  | unknown    -- UNKNOWN, the value the spec fixes
  | jumpV0     -- JP V0, nnn
deriving DecidableEq, Repr

/-- `FLAG_ORDER` (R7, R140, C10): which of result and flag is written last. -/
inductive FlagOrder where
  | flagLast   -- the value the spec fixes
  | resultLast
deriving DecidableEq, Repr

/-- The parameters of R7, one field a row, fixed for a run. Times are in microseconds (D37). -/
structure Config where
  /-- `NUM_V`. -/
  numV           : Nat
  /-- `V_WIDTH`, in bits. -/
  vWidth         : Nat
  /-- `FLAG_REG`, the index of VF (R22). -/
  flagReg        : Reg
  /-- `I_WIDTH`, in bits. -/
  iWidth         : Nat
  /-- `PC_WIDTH`, in bits. -/
  pcWidth        : Nat
  /-- `SP_WIDTH`, in bits. -/
  spWidth        : Nat
  /-- `DT_WIDTH`, in bits. -/
  dtWidth        : Nat
  /-- `ST_WIDTH`, in bits. -/
  stWidth        : Nat
  /-- `ADDR_SPACE`, in addresses (C2). -/
  addrSpace      : Nat
  /-- `MEM_SIZE`, in backed bytes (D5). -/
  memSize        : Nat
  /-- `PROGRAM_START`. -/
  programStart   : Nat
  /-- `RESERVED_END`, the last reserved byte. -/
  reservedEnd    : Nat
  /-- `FONT_BASE`. -/
  fontBase       : Nat
  /-- `FONT_GLYPHS`. -/
  fontGlyphs     : Nat
  /-- `FONT_GLYPH_BYTES`. -/
  fontGlyphBytes : Nat
  /-- `FONT`, glyph `d` at offset `d · FONT_GLYPH_BYTES` (R33). -/
  font           : List Byte
  /-- `STACK_DEPTH`, in slots of two bytes. -/
  stackDepth     : Nat
  /-- `STACK_TOP`, the empty stack's `SP` (D4). -/
  stackTop       : Nat
  /-- `FB_W`. -/
  fbW            : Nat
  /-- `FB_H`. -/
  fbH            : Nat
  /-- `NUM_KEYS`. -/
  numKeys        : Nat
  /-- `T_INSTR` (D34). -/
  tInstr         : Nat
  /-- `T_TIMER` (C3). -/
  tTimer         : Nat
  /-- `FX15_MODE` (D8). -/
  fx15Mode       : Fx15Mode
  /-- `BNNN_MODE` (D7). -/
  bnnnMode       : BnnnMode
  /-- `FLAG_ORDER` (D9). -/
  flagOrder      : FlagOrder
deriving DecidableEq, Repr

namespace Config

/-! ## The font table -/

/-- The first half of the font table, glyphs 0 to 7 (R33; general knowledge G2). -/
def fontLow : List Byte :=
  [0xF0, 0x90, 0x90, 0x90, 0xF0] ++ [0x20, 0x60, 0x20, 0x20, 0x70] ++
  [0xF0, 0x10, 0xF0, 0x80, 0xF0] ++ [0xF0, 0x10, 0xF0, 0x10, 0xF0] ++
  [0x90, 0x90, 0xF0, 0x10, 0x10] ++ [0xF0, 0x80, 0xF0, 0x10, 0xF0] ++
  [0xF0, 0x80, 0xF0, 0x90, 0xF0] ++ [0xF0, 0x10, 0x20, 0x40, 0x40]

/-- The second half of the font table, glyphs 8 to F (R33; general knowledge G2). -/
def fontHigh : List Byte :=
  [0xF0, 0x90, 0xF0, 0x90, 0xF0] ++ [0xF0, 0x90, 0xF0, 0x10, 0xF0] ++
  [0xF0, 0x90, 0xF0, 0x90, 0x90] ++ [0xE0, 0x90, 0xE0, 0x90, 0xE0] ++
  [0xF0, 0x80, 0x80, 0x80, 0xF0] ++ [0xE0, 0x90, 0x90, 0x90, 0xE0] ++
  [0xF0, 0x80, 0xF0, 0x80, 0xF0] ++ [0xF0, 0x80, 0xF0, 0x80, 0x80]

/-- The 80 bytes R33 gives for `FONT`: 16 glyphs of 5 bytes. -/
def fontTable : List Byte := fontLow ++ fontHigh

/-! ## The values of R7 -/

/-- The values 00_scope.md R7 fixes. -/
def documented : Config where
  numV           := 16
  vWidth         := 8
  flagReg        := 15
  iWidth         := 16
  pcWidth        := 16
  spWidth        := 16
  dtWidth        := 8
  stWidth        := 8
  addrSpace      := 4096
  memSize        := 4095
  programStart   := 0x200
  reservedEnd    := 0x1FF
  fontBase       := 0x000
  fontGlyphs     := 16
  fontGlyphBytes := 5
  font           := fontTable
  stackDepth     := 16
  stackTop       := 0x200
  fbW            := 64
  fbH            := 32
  numKeys        := 16
  tInstr         := 1400
  tTimer         := 16000
  fx15Mode       := .register
  bnnnMode       := .unknown
  flagOrder      := .flagLast

/-- `STACK_LOW = STACK_TOP − 2·STACK_DEPTH` (R7, D4). -/
def stackLow (c : Config) : Nat := c.stackTop - 2 * c.stackDepth

/-- The rows of R7 for which the spec names no other value, at the value it fixes: the ones that shape the state and the
instruction words. Of `FONT` only the length is fixed here; its bytes are any. -/
abbrev fixedRows (c : Config) : Prop :=
  (c.numV = 16 ∧ c.vWidth = 8 ∧ c.flagReg = 15 ∧ c.iWidth = 16 ∧ c.pcWidth = 16 ∧ c.spWidth = 16 ∧ c.dtWidth = 8 ∧
    c.stWidth = 8) ∧
  (c.addrSpace = 4096 ∧ c.programStart = 0x200 ∧ c.reservedEnd = 0x1FF ∧ c.fontBase = 0 ∧ c.fontGlyphs = 16 ∧
    c.fontGlyphBytes = 5 ∧ c.font.length = 80) ∧
  (c.stackDepth = 16 ∧ c.stackTop = 0x200 ∧ c.fbW = 64 ∧ c.fbH = 32 ∧ c.numKeys = 16)

/-- The parameter values the invariant asks for: the fixed rows; the stack region backed, the memory inside the 12-bit address
space, an instruction that takes time: what `MEM_SIZE` and `T_INSTR` may sensibly be (R7, R50, U12). -/
abbrev wf (c : Config) : Prop :=
  c.fixedRows ∧ c.stackTop ≤ c.memSize ∧ c.memSize ≤ c.addrSpace ∧ 0 < c.tInstr

/-! ## Free values -/

/-- FREE VALUE. The byte the `rand` port gives at its n-th use (R152, R281, D26, U1): nothing constrains it. -/
opaque randByte : Nat → Byte

/-- FREE VALUE. `FB_ON`, the byte the `fb` port shows for a cell that is on, which R7 leaves OPEN (D27, U2). -/
opaque fbOn : Byte

/-- FREE VALUE. `FB_OFF`, the byte the `fb` port shows for a cell that is off, which R7 leaves OPEN (D27, U2). -/
opaque fbOff : Byte

end Config

end Sys2Proof
end

