-- ==== Sys2Proof/Syntax.lean ====
section
/-! DEFINITION. The instructions: one constructor per row of spec/opcode_table.json (30_encoding.md R88, R100). -/

namespace Sys2Proof

/-- The decoded instruction. `x`, `y` are register indexes, `kk`, `nnn`, `n` the immediates of R81; `unknown` carries its word.
SHR and SHL keep the `y` field, which the decoder reads and the instruction ignores (R83). -/
inductive Instr where
  | cls                            -- 00E0  CLS
  | ret                            -- 00EE  RET
  | jp     (nnn : Imm12)           -- 1nnn  JP nnn
  | call   (nnn : Imm12)           -- 2nnn  CALL nnn
  | seKk   (x : Reg) (kk : Byte)   -- 3xkk  SE Vx, kk
  | sneKk  (x : Reg) (kk : Byte)   -- 4xkk  SNE Vx, kk
  | seVy   (x y : Reg)             -- 5xy0  SE Vx, Vy
  | ldKk   (x : Reg) (kk : Byte)   -- 6xkk  LD Vx, kk
  | addKk  (x : Reg) (kk : Byte)   -- 7xkk  ADD Vx, kk
  | ldVy   (x y : Reg)             -- 8xy0  LD Vx, Vy
  | orVy   (x y : Reg)             -- 8xy1  OR Vx, Vy
  | andVy  (x y : Reg)             -- 8xy2  AND Vx, Vy
  | xorVy  (x y : Reg)             -- 8xy3  XOR Vx, Vy
  | addVy  (x y : Reg)             -- 8xy4  ADD Vx, Vy
  | subVy  (x y : Reg)             -- 8xy5  SUB Vx, Vy
  | shr    (x y : Reg)             -- 8xy6  SHR Vx
  | subnVy (x y : Reg)             -- 8xy7  SUBN Vx, Vy
  | shl    (x y : Reg)             -- 8xyE  SHL Vx
  | sneVy  (x y : Reg)             -- 9xy0  SNE Vx, Vy
  | ldI    (nnn : Imm12)           -- Annn  LD I, nnn
  | jpV0   (nnn : Imm12)           -- Bnnn  JP V0, nnn (BNNN_MODE = JumpV0)
  | rnd    (x : Reg) (kk : Byte)   -- Cxkk  RND Vx, kk
  | drw    (x y : Reg) (n : Nibble)-- Dxyn  DRW Vx, Vy, n
  | skp    (x : Reg)               -- Ex9E  SKP Vx
  | sknp   (x : Reg)               -- ExA1  SKNP Vx
  | ldVxDt (x : Reg)               -- Fx07  LD Vx, DT
  | ldVxK  (x : Reg)               -- Fx0A  LD Vx, K
  | ldDtVx (x : Reg)               -- Fx15  LD DT, Vx
  | ldStVx (x : Reg)               -- Fx18  LD ST, Vx
  | addI   (x : Reg)               -- Fx1E  ADD I, Vx
  | ldF    (x : Reg)               -- Fx29  LD F, Vx
  | ldB    (x : Reg)               -- Fx33  LD B, Vx
  | dump   (x : Reg)               -- Fx55  LD [I], Vx
  | load   (x : Reg)               -- Fx65  LD Vx, [I]
  | unknown (w : Word)             -- every other word (R86)
deriving DecidableEq, Repr

end Sys2Proof
end

