-- ==== Sys2Proof/WellFormed.lean ====
section
/-! DEFINITION. Which terms of `Instr` some instruction word stands for, under a value of `BNNN_MODE`
(30_encoding.md R86, R88). The operand types already hold every operand in its field, so two checks remain:
`unknown` carries a word outside the catalogue, and `jpV0` exists only with `BNNN_MODE = JumpV0`. -/

namespace Sys2Proof

/-- One row of the opcode table: the word `w` belongs to it when `w &&& mask = match`. -/
structure OpRow where
  mask : Word
  bits : Word
deriving DecidableEq, Repr

/-- Whether a word carries the fixed bits of a row. -/
def OpRow.fits (r : OpRow) (w : Word) : Bool := w &&& r.mask == r.bits

/-- The rows with a 4-bit or 16-bit key (R84, leading nibbles 0 to 7, A, C, D). -/
def plainRows : List OpRow :=
  [⟨0xFFFF, 0x00E0⟩, ⟨0xFFFF, 0x00EE⟩, ⟨0xF000, 0x1000⟩, ⟨0xF000, 0x2000⟩, ⟨0xF000, 0x3000⟩, ⟨0xF000, 0x4000⟩,
   ⟨0xF000, 0x6000⟩, ⟨0xF000, 0x7000⟩, ⟨0xF000, 0xA000⟩, ⟨0xF000, 0xC000⟩, ⟨0xF000, 0xD000⟩]

/-- The rows keyed by the leading and the last nibble (R84, families 5, 8, 9). -/
def registerRows : List OpRow :=
  [⟨0xF00F, 0x5000⟩, ⟨0xF00F, 0x8000⟩, ⟨0xF00F, 0x8001⟩, ⟨0xF00F, 0x8002⟩, ⟨0xF00F, 0x8003⟩, ⟨0xF00F, 0x8004⟩,
   ⟨0xF00F, 0x8005⟩, ⟨0xF00F, 0x8006⟩, ⟨0xF00F, 0x8007⟩, ⟨0xF00F, 0x800E⟩, ⟨0xF00F, 0x9000⟩]

/-- The rows keyed by the leading nibble and the trailing byte (R84, families E, F). -/
def trailingRows : List OpRow :=
  [⟨0xF0FF, 0xE09E⟩, ⟨0xF0FF, 0xE0A1⟩, ⟨0xF0FF, 0xF007⟩, ⟨0xF0FF, 0xF00A⟩, ⟨0xF0FF, 0xF015⟩, ⟨0xF0FF, 0xF018⟩,
   ⟨0xF0FF, 0xF01E⟩, ⟨0xF0FF, 0xF029⟩, ⟨0xF0FF, 0xF033⟩, ⟨0xF0FF, 0xF055⟩, ⟨0xF0FF, 0xF065⟩]

/-- The row of `JP V0, nnn`, present only with `BNNN_MODE = JumpV0` (R118). -/
def jumpV0Rows : BnnnMode → List OpRow
  | .unknown => []
  | .jumpV0  => [⟨0xF000, 0xB000⟩]

/-- Every row of the table but UNKNOWN's. -/
def catalogue (m : BnnnMode) : List OpRow := plainRows ++ registerRows ++ trailingRows ++ jumpV0Rows m

/-- Whether a word matches a catalogued pattern. -/
def catalogued (m : BnnnMode) (w : Word) : Bool := (catalogue m).any (fun r => r.fits w)

/-- The check of a term: `unknown` only over the UNKNOWN space (R86), `jpV0` only where `Bnnn` is a jump (R88). -/
def Instr.wf (m : BnnnMode) (i : Instr) : Bool :=
  match i with
  | .unknown w => !catalogued m w
  | .jpV0 _    => m == .jumpV0
  | .cls | .ret | .jp _ | .call _ | .seKk _ _ | .sneKk _ _ | .seVy _ _ | .ldKk _ _ | .addKk _ _ | .ldVy _ _
  | .orVy _ _ | .andVy _ _ | .xorVy _ _ | .addVy _ _ | .subVy _ _ | .shr _ _ | .subnVy _ _ | .shl _ _ | .sneVy _ _
  | .ldI _ | .rnd _ _ | .drw _ _ _ | .skp _ | .sknp _ | .ldVxDt _ | .ldVxK _ | .ldDtVx _ | .ldStVx _ | .addI _
  | .ldF _ | .ldB _ | .dump _ | .load _ => true

end Sys2Proof
end

