-- ==== Sys2Proof/Decode.lean ====
section
/-! DEFINITION. The decoder of 30_encoding.md R84 (total over words), the byte order of 20_memory.md R53, and the encoder
written from the pattern strings of R82 and R100. -/

namespace Sys2Proof

/-- `hi ++ lo`: the word of two bytes, the first the high one (R53). -/
def joinBytes (hi lo : Byte) : Word := hi ++ lo

/-- `w[15:8]`. -/
def highByte (w : Word) : Byte := w.extractLsb' 8 8

/-- `w[7:0]`, the trailing byte `kk` (R8). -/
def lowByte (w : Word) : Byte := w.extractLsb' 0 8

/-- `N3 = w[15:12]`, the family (R8). -/
def nibble3 (w : Word) : Nibble := w.extractLsb' 12 4

/-- `N2 = w[11:8]`, the field `x` (R8, R81). -/
def nibble2 (w : Word) : Nibble := w.extractLsb' 8 4

/-- `N1 = w[7:4]`, the field `y` (R8, R81). -/
def nibble1 (w : Word) : Nibble := w.extractLsb' 4 4

/-- `N0 = w[3:0]`, the field `n` (R8, R81). -/
def nibble0 (w : Word) : Nibble := w.extractLsb' 0 4

/-- `w[11:0]`, the field `nnn` (R81). -/
def addressField (w : Word) : Imm12 := w.extractLsb' 0 12

/-- The register a 4-bit field names. -/
def regOfNibble (b : Nibble) : Reg := ⟨b.toNat, b.isLt⟩

/-- The 4-bit field that names a register. -/
def nibbleOfReg (r : Reg) : Nibble := BitVec.ofNat 4 r.val

/-- Family 0: the two fixed words (R84). -/
def decodeFamily0 (w : Word) : Instr :=
  if w = 0x00E0#16 then .cls else if w = 0x00EE#16 then .ret else .unknown w

/-- Family 8, by `N0` (R84). -/
def decodeFamily8 (w : Word) (x y : Reg) : Instr :=
  match nibble0 w with
  | 0x0#4 => .ldVy x y
  | 0x1#4 => .orVy x y
  | 0x2#4 => .andVy x y
  | 0x3#4 => .xorVy x y
  | 0x4#4 => .addVy x y
  | 0x5#4 => .subVy x y
  | 0x6#4 => .shr x y
  | 0x7#4 => .subnVy x y
  | 0xE#4 => .shl x y
  | _     => .unknown w

/-- Family E, by the trailing byte (R84). -/
def decodeFamilyE (w : Word) (x : Reg) : Instr :=
  match lowByte w with
  | 0x9E#8 => .skp x
  | 0xA1#8 => .sknp x
  | _      => .unknown w

/-- Family F, by the trailing byte (R84). -/
def decodeFamilyF (w : Word) (x : Reg) : Instr :=
  match lowByte w with
  | 0x07#8 => .ldVxDt x
  | 0x0A#8 => .ldVxK x
  | 0x15#8 => .ldDtVx x
  | 0x18#8 => .ldStVx x
  | 0x1E#8 => .addI x
  | 0x29#8 => .ldF x
  | 0x33#8 => .ldB x
  | 0x55#8 => .dump x
  | 0x65#8 => .load x
  | _      => .unknown w

/-- `Decode(w)` (R84): total, every word one variant; `Bnnn` by `BNNN_MODE`. -/
def decode (m : BnnnMode) (w : Word) : Instr :=
  let x := regOfNibble (nibble2 w)
  let y := regOfNibble (nibble1 w)
  match nibble3 w with
  | 0x0#4 => decodeFamily0 w
  | 0x1#4 => .jp (addressField w)
  | 0x2#4 => .call (addressField w)
  | 0x3#4 => .seKk x (lowByte w)
  | 0x4#4 => .sneKk x (lowByte w)
  | 0x5#4 => if nibble0 w = 0x0#4 then .seVy x y else .unknown w
  | 0x6#4 => .ldKk x (lowByte w)
  | 0x7#4 => .addKk x (lowByte w)
  | 0x8#4 => decodeFamily8 w x y
  | 0x9#4 => if nibble0 w = 0x0#4 then .sneVy x y else .unknown w
  | 0xA#4 => .ldI (addressField w)
  | 0xB#4 => if m = .jumpV0 then .jpV0 (addressField w) else .unknown w
  | 0xC#4 => .rnd x (lowByte w)
  | 0xD#4 => .drw x y (nibble0 w)
  | 0xE#4 => decodeFamilyE w x
  | _     => decodeFamilyF w x   -- 0xF, the one value left

/-- Why a byte string starts no instruction. Safe: nothing is decoded. -/
inductive DecodeReject where
  /-- Fewer than the two bytes every instruction takes (R80). -/
  | fewerThanTwoBytes
deriving DecidableEq, Repr

/-- The instruction a byte string starts with, and the bytes after it: two bytes, the high one first (R53, R80). -/
def decodeBytes (m : BnnnMode) (bytes : List Byte) : Except DecodeReject (Instr × List Byte) :=
  match bytes with
  | hi :: lo :: rest => .ok (decode m (joinBytes hi lo), rest)
  | [_]              => .error .fewerThanTwoBytes
  | []               => .error .fewerThanTwoBytes

/-- Pattern `oooo nnnn nnnn nnnn` (R82, format NNN). -/
def packNnn (op : Nibble) (nnn : Imm12) : Word := op ++ nnn

/-- Pattern `oooo xxxx kkkk kkkk` (R82, formats XKK and XSS). -/
def packXkk (op : Nibble) (x : Reg) (kk : Byte) : Word := (op ++ nibbleOfReg x : BitVec 8) ++ kk

/-- Pattern `oooo xxxx yyyy ssss` (R82, formats XYS and XYN). -/
def packXyn (op : Nibble) (x y : Reg) (n : Nibble) : Word :=
  (op ++ nibbleOfReg x : BitVec 8) ++ (nibbleOfReg y ++ n : BitVec 8)

/-- The word of an instruction (R82, R100); an `unknown` is its own word. -/
def encode (i : Instr) : Word :=
  match i with
  | .cls        => 0x00E0
  | .ret        => 0x00EE
  | .jp nnn     => packNnn 0x1 nnn
  | .call nnn   => packNnn 0x2 nnn
  | .seKk x kk  => packXkk 0x3 x kk
  | .sneKk x kk => packXkk 0x4 x kk
  | .seVy x y   => packXyn 0x5 x y 0x0
  | .ldKk x kk  => packXkk 0x6 x kk
  | .addKk x kk => packXkk 0x7 x kk
  | .ldVy x y   => packXyn 0x8 x y 0x0
  | .orVy x y   => packXyn 0x8 x y 0x1
  | .andVy x y  => packXyn 0x8 x y 0x2
  | .xorVy x y  => packXyn 0x8 x y 0x3
  | .addVy x y  => packXyn 0x8 x y 0x4
  | .subVy x y  => packXyn 0x8 x y 0x5
  | .shr x y    => packXyn 0x8 x y 0x6
  | .subnVy x y => packXyn 0x8 x y 0x7
  | .shl x y    => packXyn 0x8 x y 0xE
  | .sneVy x y  => packXyn 0x9 x y 0x0
  | .ldI nnn    => packNnn 0xA nnn
  | .jpV0 nnn   => packNnn 0xB nnn
  | .rnd x kk   => packXkk 0xC x kk
  | .drw x y n  => packXyn 0xD x y n
  | .skp x      => packXkk 0xE x 0x9E
  | .sknp x     => packXkk 0xE x 0xA1
  | .ldVxDt x   => packXkk 0xF x 0x07
  | .ldVxK x    => packXkk 0xF x 0x0A
  | .ldDtVx x   => packXkk 0xF x 0x15
  | .ldStVx x   => packXkk 0xF x 0x18
  | .addI x     => packXkk 0xF x 0x1E
  | .ldF x      => packXkk 0xF x 0x29
  | .ldB x      => packXkk 0xF x 0x33
  | .dump x     => packXkk 0xF x 0x55
  | .load x     => packXkk 0xF x 0x65
  | .unknown w  => w

/-- The two bytes of a word as memory holds them (R53). -/
def bytesOfWord (w : Word) : List Byte := [highByte w, lowByte w]

/-- The instruction the decoder reads from a table word of `nbits` bits, under the value of `BNNN_MODE` that R7 fixes.
The bits above `nbits` are 0; a word wider than the 16 bits of an instruction (R80) is none. -/
def decodeTableWord (nbits w : Nat) : Option Instr :=
  if 16 < nbits then none
  else
    match decodeBytes Config.documented.bnnnMode (bytesOfWord (BitVec.ofNat 16 (w % 2 ^ nbits))) with
    | .ok (i, _)  => some i
    | .error _    => none

end Sys2Proof
end

