-- ==== Sys2Proof/Machine/State.lean ====
section
/-! DEFINITION. The state of the core (10_state.md), as plain data, and its reset value (R38). -/

namespace Sys2Proof.Machine

/-- The fatal kinds (60_exceptions.md R262). -/
inductive FatalKind where
  /-- Code 1: a memory access at an address at or above `MEM_SIZE`. -/
  | memRange
  /-- Code 2: a general-register index above 15; nothing raises it (R24). -/
  | regIndex
  /-- Code 3: a push with 16 slots in use. -/
  | stackOverflow
  /-- Code 4: a pop of an empty stack. -/
  | stackUnderflow
  /-- Code 5: a program image longer than `MEM_SIZE − 0x200`. -/
  | imageTooLarge
  /-- Code 6: SKP or SKNP with `V[x] ≥ 16`. -/
  | keyIndex
deriving DecidableEq, Repr

/-- `RUN` (R31, R272). -/
inductive RunState where
  | running
  | haltedForKey
  | fatal (kind : FatalKind)
deriving DecidableEq, Repr

/-- Why a step stops. -/
inductive Fault where
  /-- Raised by a step of a state in FATAL with no input at hand: "In FATAL nothing moves" (R261). Safe: the machine has aborted. -/
  | fatal (kind : FatalKind)
deriving DecidableEq, Repr

/-- Why an instruction has no meaning. -/
inductive Refusal where
  /-- Raised by an arm of `exec` whose instruction is not modelled. Safe: nothing is proved of it. No arm raises it in this model. -/
  | notModelled (mnemonic : String)
deriving DecidableEq, Repr

/-- What the environment does at the core's input ports (R278). -/
inductive Input where
  /-- `tick` with `elapsed` in microseconds, and the `keys` sampled at its start, bit `k` for `KEYS[k]` (R277, R278). -/
  | tick (elapsed : Nat) (keys : BitVec 16)
  /-- `reset` with a program image (R300). -/
  | reset (image : List Byte)
deriving DecidableEq, Repr

/-- `MEM` as the list of (address, byte) pairs that differ from the reset contents, addresses strictly rising. -/
abbrev Memory := List Host.Cell

/-- The whole state: R20 to R36, then the parameters (R7), then the model's own fields. The widths of the fields are those R7 fixes
(Laws/Config.lean). -/
structure State where
  /-- `V[0]` to `V[15]` (R20). -/
  v        : Vector Byte 16
  /-- `I` (R27). -/
  i        : Word
  /-- `PC` (R25). -/
  pc       : Word
  /-- `SP` (R28). -/
  sp       : Word
  /-- `DT` (R29). -/
  dt       : Byte
  /-- `ST` (R30). -/
  st       : Byte
  /-- `RUN` (R31). -/
  run      : RunState
  /-- `HALT_REG` (R31). -/
  haltReg  : Reg
  /-- `MEM` (R32). -/
  mem      : Memory
  /-- `FB` (R34): row `y` of the grid, whose bit `x` is cell `(x, y)`. -/
  fb       : Vector (BitVec 64) 32
  /-- `KEYS` (R35), bit `k` for `KEYS[k]`. -/
  keys     : BitVec 16
  /-- `CYCLE_ACC` in microseconds (R36). -/
  cycleAcc : Nat
  /-- `TIMER_ACC` in microseconds (R36). -/
  timerAcc : Nat
  /-- The parameters of R7, which no step changes. -/
  cfg      : Config
  /-- The model's own: how many bytes the `rand` port has given (R281). -/
  draws    : Nat
  /-- The model's own: the `elapsed` of the tick whose batch of instructions is running (R273). -/
  batch    : Option Nat
  /-- The model's own: the environment's inputs still to come, oldest first (R278). -/
  inputs   : List Input
deriving DecidableEq, Repr

/-- The state `Reset` establishes before the font and the image are copied, under given parameters (R38, R300). -/
def State.blank (c : Config) : State where
  v        := Vector.replicate 16 0
  i        := 0
  pc       := BitVec.ofNat 16 c.programStart
  sp       := BitVec.ofNat 16 c.stackTop
  dt       := 0
  st       := 0
  run      := .running
  haltReg  := 0
  mem      := []
  fb       := Vector.replicate 32 0
  keys     := 0
  cycleAcc := 0
  timerAcc := 0
  cfg      := c
  draws    := 0
  batch    := none
  inputs   := []

/-- The machine right after reset with an empty image, the parameters as R7 fixes them (R38): their `FONT` is what an empty memory
list reads as (`Memory.background`, log 7), so the font copy of R300 leaves the list empty (`State.initial_documented`). -/
def State.reset : State := State.blank Config.documented

end Sys2Proof.Machine
end

