-- ==== Sys2Proof/Machine/Ops.lean ====
section
/-! DEFINITION. The named operations over memory, registers, the stack, the framebuffer and the run state (20_memory.md,
10_state.md, 60_exceptions.md R260). A fatal condition is the only exception (R260 to R267): entering it is `State.enterFatal`,
and there is no return from one (R267). -/

namespace Sys2Proof.Machine

/-! ## Memory bytes (R32, R33) -/

/-- What an unlisted address reads as: the reset contents under the values of R7, the font of R33 at 0x000–0x04F and 0 elsewhere
(R32). Another `FONT` is listed byte by byte where it differs (`State.initial`). -/
def Memory.background (a : Nat) : Byte := Config.fontTable.getD a 0

/-- The byte at an address, with no range check. -/
def Memory.read (m : Memory) (a : Nat) : Byte :=
  match m with
  | []             => Memory.background a
  | (b, u) :: rest => if a = b then u else Memory.read rest a

/-- A cell put before the first one of a higher address. -/
def Memory.insertCell (m : Memory) (a : Nat) (u : Byte) : Memory :=
  match m with
  | []             => [(a, u)]
  | (b, t) :: rest => if a < b then (a, u) :: (b, t) :: rest else (b, t) :: Memory.insertCell rest a u

/-- The memory with one byte replaced, with no range check: the old entry of the address goes, and the new byte is listed only
when it differs from what an unlisted address reads as, so the canonical form stays. -/
def Memory.write (m : Memory) (a : Nat) (u : Byte) : Memory :=
  let kept := m.filter fun c => c.1 != a
  if u = Memory.background a then kept else Memory.insertCell kept a u

/-- The canonical form: addresses strictly rising, no entry equal to what an unlisted address reads as. -/
abbrev Memory.wf (m : Memory) : Prop :=
  m.Pairwise (fun c d => c.1 < d.1) ∧ ∀ c ∈ m, c.2 ≠ Memory.background c.1

/-! ## General registers (R20, R21) -/

/-- `V[r]`. -/
def State.readV (s : State) (r : Reg) : Byte := s.v[r.val]

/-- `V[r] <- u`. -/
def State.writeV (s : State) (r : Reg) (u : Byte) : State := { s with v := s.v.set r.val u }

/-! ## Framebuffer cells (R34, R210) -/

/-- `FB[j]`, cell `(j mod 64, j div 64)`. -/
def State.cell (s : State) (j : Nat) : Bool := (s.fb[j / 64]?.getD 0).getLsbD (j % 64)

/-- `FB[j] <- FB[j] ^ 1`. -/
def State.flipCell (s : State) (j : Nat) : State :=
  { s with fb := s.fb.setIfInBounds (j / 64) ((s.fb[j / 64]?.getD 0) ^^^ BitVec.twoPow 64 (j % 64)) }

/-- Every cell off (R211). -/
def State.clearCells (s : State) : State := { s with fb := Vector.replicate 32 0 }

/-! ## The program counter (R25, R26, R110) -/

/-- `PC <- (PC + 2) mod 2^16`: the advance of every instruction (R95) and the distance of a skip (R110). -/
def State.advancePc (s : State) : State := { s with pc := s.pc + 2 }

/-- A skip when the condition holds (R110). -/
def State.skipIf (s : State) (cond : Bool) : State := if cond then s.advancePc else s

/-! ## Fatal conditions (R12, R260) -/

/-- `raise Fatal(kind)`: `RUN <- FATAL(kind)`; the writes made before it stay, nothing else changes (R260). -/
def State.enterFatal (s : State) (k : FatalKind) : State := { s with run := .fatal k }

/-- What a sequence of accesses comes to: a value and the state after it, or the fatal condition raised and the state as the
accesses before the failing check left it (R260). -/
inductive Attempt (α : Type) where
  | ok     (a : α) (s : State)
  | raised (kind : FatalKind) (s : State)
deriving Repr

/-- One attempt after another; a raised condition ends both. -/
def Attempt.andThen {α β : Type} (p : Attempt α) (f : α → State → Attempt β) : Attempt β :=
  match p with
  | .ok a s     => f a s
  | .raised k s => .raised k s

/-- The outcome of an instruction: its last state, or the state in FATAL (R260). -/
def Attempt.finish (p : Attempt Unit) : Host.Outcome State Fault Refusal :=
  match p with
  | .ok _ s     => .next s
  | .raised k s => .next (s.enterFatal k)

/-! ## The memory port (R11, R51, R52) -/

/-- `MemRead(a, 1)`. -/
def memRead (a : Nat) (s : State) : Attempt Byte :=
  if a < s.cfg.memSize then .ok (s.mem.read a) s else .raised .memRange s

/-- `MemWrite(a, 1, u)`. -/
def memWrite (a : Nat) (u : Byte) (s : State) : Attempt Unit :=
  if a < s.cfg.memSize then .ok () { s with mem := s.mem.write a u } else .raised .memRange s

/-- Bytes written one by one at increasing addresses from `a`, up to the first that is out of range (R56, R183, R184). -/
def storeBytes (a : Nat) (bytes : List Byte) (s : State) : Attempt Unit :=
  match bytes with
  | []        => .ok () s
  | u :: rest => (memWrite a u s).andThen fun _ s => storeBytes (a + 1) rest s

/-- Registers loaded one by one from increasing addresses from `a`, up to the first that is out of range (R185). -/
def loadRegs (a : Nat) (regs : List Reg) (s : State) : Attempt Unit :=
  match regs with
  | []        => .ok () s
  | r :: rest => (memRead a s).andThen fun u s => loadRegs (a + 1) rest (s.writeV r u)

/-- The word at an address, the high byte first (R53, R61). -/
def readWord (a : Nat) (s : State) : Attempt Word :=
  (memRead a s).andThen fun hi s => (memRead (a + 1) s).andThen fun lo s => .ok (joinBytes hi lo) s

/-- `Fetch()` (R54). -/
def fetch (s : State) : Attempt Word := readWord s.pc.toNat s

/-! ## The stack engine (R58 to R61) -/

/-- `push(u)` (R58): the boundary check, then the pointer, then the two bytes. -/
def push (u : Word) (s : State) : Attempt Unit :=
  if s.sp.toNat < s.cfg.stackLow + 2 then .raised .stackOverflow s
  else
    let s := { s with sp := s.sp - 2 }
    storeBytes s.sp.toNat [highByte u, lowByte u] s

/-- `peek()` (R60): the check and the read of `pop`. -/
def peek (s : State) : Attempt Word :=
  if s.cfg.stackTop < s.sp.toNat + 2 then .raised .stackUnderflow s else readWord s.sp.toNat s

/-- `pop()` (R59). -/
def pop (s : State) : Attempt Word :=
  (peek s).andThen fun u s => .ok u { s with sp := s.sp + 2 }

/-! ## The delay timer (R29, R234, R271) -/

/-- `DT <- u`. `TIMER_ACC` is held at 0 while `DT` is 0, so a write of 0 clears it and a write to a stopped timer starts a fresh
count; between two values above 0 the fraction is kept (R234, R271, D24). That the write itself clears it: DEDUCED (log 18). -/
def State.setDelayTimer (s : State) (u : Byte) : State :=
  { s with dt := u, timerAcc := if s.dt = 0 ∨ u = 0 then 0 else s.timerAcc }

/-! ## Halt for a key (R31, R276) -/

/-- `RUN <- HALTED_FOR_KEY; HALT_REG <- r` (R232). -/
def State.haltForKey (s : State) (r : Reg) : State := { s with run := .haltedForKey, haltReg := r }

/-- `min { k | KEYS[k] }`, none when no key is pressed (R276). -/
def lowestPressed (keys : BitVec 16) : Option (Fin 16) := (List.finRange 16).find? fun k => keys.getLsbD k.val

/-- The resume of R276: with a key pressed, its lowest index to `V[HALT_REG]` and `RUN <- RUNNING`; with none, nothing. -/
def State.resumeIfKey (s : State) : State :=
  match lowestPressed s.keys with
  | some k => { s.writeV s.haltReg (BitVec.ofNat 8 k.val) with run := .running }
  | none   => s

/-! ## The random port (R281) -/

/-- The byte of this draw, a free value. -/
def State.drawnByte (s : State) : Byte := Config.randByte s.draws

/-- The state after the draw. -/
def State.afterDraw (s : State) : State := { s with draws := s.draws + 1 }

end Sys2Proof.Machine
end

