-- ==== Sys2Proof/Machine/Operands.lean ====
section
/-! DEFINITION. The operand forms (30_encoding.md R83): registers, zero-extended immediates, the address `I + k`, the register
range `V[0]..V[x]`, the sprite origin, the decimal digits and the operand of `Fx15`. -/

namespace Sys2Proof.Machine

/-- `zext_16(nnn)` (R83). -/
def zextAddress (nnn : Imm12) : Word := nnn.setWidth 16

/-- `zext_16` of a byte (R9). -/
def zextByte (u : Byte) : Word := u.setWidth 16

/-- The address of byte `k` of a transfer: the plain sum `I + k`, never wrapped (R51, D21). -/
def State.transferAddress (s : State) (k : Nat) : Nat := s.i.toNat + k

/-- The registers `V[0]..V[x]` in increasing order (R184, R185). -/
def regsUpTo (x : Reg) : List Reg := (List.finRange 16).take (x.val + 1)

/-- The values of `V[0]..V[x]` (R184). -/
def State.valuesUpTo (s : State) (x : Reg) : List Byte := (regsUpTo x).map s.readV

/-- Hundreds, tens and ones of a byte (R183). -/
def bcdDigits (u : Byte) : List Byte :=
  [BitVec.ofNat 8 (u.toNat / 100), BitVec.ofNat 8 (u.toNat / 10 % 10), BitVec.ofNat 8 (u.toNat % 10)]

/-- `ox`: the sprite's column, `V[x] mod FB_W` (R212). -/
def State.originX (s : State) (x : Reg) : Nat := (s.readV x).toNat % s.cfg.fbW

/-- `oy`: the sprite's row, `V[y] mod FB_H` (R212). -/
def State.originY (s : State) (y : Reg) : Nat := (s.readV y).toNat % s.cfg.fbH

/-- The index of the cell under row `r`, column `c` of a sprite at an origin, wrapped at both edges of a grid of `w` columns and `h`
rows (R34, R212). -/
def cellIndex (w h ox oy r c : Nat) : Nat := (oy + r) % h * w + (ox + c) % w

/-- The operand of `Fx15`: `V[x]`, or the field `x` itself (R234, C5). -/
def State.timerOperand (s : State) (x : Reg) : Byte :=
  match s.cfg.fx15Mode with
  | .register => s.readV x
  | .nibble   => BitVec.ofNat 8 x.val

end Sys2Proof.Machine
end

