-- ==== Sys2Proof/Machine/Flags.lean ====
section
/-! DEFINITION. Every result and flag computation of the ALU (41_alu.md R140, R153): computed over unbounded numbers, then
narrowed. -/

namespace Sys2Proof.Machine

/-- A flag as the byte VF holds. -/
def flagByte (f : Bool) : Byte := if f then 1 else 0

/-- `(a + b) mod 256` (R147). -/
def sumByte (a b : Byte) : Byte := BitVec.ofNat 8 (a.toNat + b.toNat)

/-- Carry: the unmasked sum is above 255 (R147). -/
def carryOut (a b : Byte) : Bool := decide (255 < a.toNat + b.toNat)

/-- `(a − b) mod 256` (R148). -/
def diffByte (a b : Byte) : Byte := BitVec.ofInt 8 (a.toNat - b.toNat : Int)

/-- The flag of a subtraction: `a > b`, strictly (R148, R150, C4). -/
def strictlyAbove (a b : Byte) : Bool := decide (b.toNat < a.toNat)

/-- `a >> 1` (R149). -/
def halfByte (a : Byte) : Byte := a >>> 1

/-- The bit a right shift moves out, `a[0]` (R149). -/
def lowBit (a : Byte) : Bool := a.getLsbD 0

/-- `(a << 1) mod 256` (R151). -/
def doubleByte (a : Byte) : Byte := a <<< 1

/-- The bit a left shift moves out, `a[7]` (R151). -/
def highBit (a : Byte) : Bool := a.getLsbD 7

/-- `WriteResultAndFlag(x, r, f)` (R140 (c)): the order matters only for `x = FLAG_REG`. -/
def State.writeResultAndFlag (s : State) (x : Reg) (r : Byte) (f : Bool) : State :=
  match s.cfg.flagOrder with
  | .flagLast   => (s.writeV x r).writeV s.cfg.flagReg (flagByte f)
  | .resultLast => (s.writeV s.cfg.flagReg (flagByte f)).writeV x r

end Sys2Proof.Machine
end

