-- ==== Sys2Proof/Machine/AddressMemory.lean ====
section
/-! DEFINITION. Address register and memory transfers (42_address_memory.md). `I` is never changed by a transfer (D12). -/

namespace Sys2Proof.Machine

/-- LD I, nnn (R180). -/
def execLdI (nnn : Imm12) (s : State) : Host.Outcome State Fault Refusal :=
  .next { s with i := zextAddress nnn }

/-- ADD I, Vx (R181): modulo 2^16, no flag. -/
def execAddI (x : Reg) (s : State) : Host.Outcome State Fault Refusal :=
  .next { s with i := s.i + zextByte (s.readV x) }

/-- LD F, Vx (R182): the whole of `V[x]`, not masked. -/
def execLdF (x : Reg) (s : State) : Host.Outcome State Fault Refusal :=
  .next { s with i := zextByte (s.readV x) * 5 }

/-- LD B, Vx (R183). -/
def execLdB (x : Reg) (s : State) : Host.Outcome State Fault Refusal :=
  (storeBytes (s.transferAddress 0) (bcdDigits (s.readV x)) s).finish

/-- LD [I], Vx (R184). -/
def execDump (x : Reg) (s : State) : Host.Outcome State Fault Refusal :=
  (storeBytes (s.transferAddress 0) (s.valuesUpTo x) s).finish

/-- LD Vx, [I] (R185). -/
def execLoad (x : Reg) (s : State) : Host.Outcome State Fault Refusal :=
  (loadRegs (s.transferAddress 0) (regsUpTo x) s).finish

end Sys2Proof.Machine
end

