-- ==== Sys2Proof/Machine/Alu.lean ====
section
/-! DEFINITION. The ALU (41_alu.md): every operand is read before anything is written (R140 (a)); `PC` is not touched. -/

namespace Sys2Proof.Machine

/-- LD Vx, kk (R141). -/
def execLdKk (x : Reg) (kk : Byte) (s : State) : Host.Outcome State Fault Refusal :=
  .next (s.writeV x kk)

/-- ADD Vx, kk (R142): no flag. -/
def execAddKk (x : Reg) (kk : Byte) (s : State) : Host.Outcome State Fault Refusal :=
  .next (s.writeV x (sumByte (s.readV x) kk))

/-- LD Vx, Vy (R143). -/
def execLdVy (x y : Reg) (s : State) : Host.Outcome State Fault Refusal :=
  .next (s.writeV x (s.readV y))

/-- OR Vx, Vy (R144): VF is not reset. -/
def execOrVy (x y : Reg) (s : State) : Host.Outcome State Fault Refusal :=
  .next (s.writeV x (s.readV x ||| s.readV y))

/-- AND Vx, Vy (R145): VF is not reset. -/
def execAndVy (x y : Reg) (s : State) : Host.Outcome State Fault Refusal :=
  .next (s.writeV x (s.readV x &&& s.readV y))

/-- XOR Vx, Vy (R146): VF is not reset. -/
def execXorVy (x y : Reg) (s : State) : Host.Outcome State Fault Refusal :=
  .next (s.writeV x (s.readV x ^^^ s.readV y))

/-- ADD Vx, Vy (R147). -/
def execAddVy (x y : Reg) (s : State) : Host.Outcome State Fault Refusal :=
  .next (s.writeResultAndFlag x (sumByte (s.readV x) (s.readV y)) (carryOut (s.readV x) (s.readV y)))

/-- SUB Vx, Vy (R148). -/
def execSubVy (x y : Reg) (s : State) : Host.Outcome State Fault Refusal :=
  .next (s.writeResultAndFlag x (diffByte (s.readV x) (s.readV y)) (strictlyAbove (s.readV x) (s.readV y)))

/-- SHR Vx (R149): `y` is ignored. -/
def execShr (x _y : Reg) (s : State) : Host.Outcome State Fault Refusal :=
  .next (s.writeResultAndFlag x (halfByte (s.readV x)) (lowBit (s.readV x)))

/-- SUBN Vx, Vy (R150). -/
def execSubnVy (x y : Reg) (s : State) : Host.Outcome State Fault Refusal :=
  .next (s.writeResultAndFlag x (diffByte (s.readV y) (s.readV x)) (strictlyAbove (s.readV y) (s.readV x)))

/-- SHL Vx (R151): `y` is ignored. -/
def execShl (x _y : Reg) (s : State) : Host.Outcome State Fault Refusal :=
  .next (s.writeResultAndFlag x (doubleByte (s.readV x)) (highBit (s.readV x)))

/-- RND Vx, kk (R152): one draw from the `rand` port (R281). -/
def execRnd (x : Reg) (kk : Byte) (s : State) : Host.Outcome State Fault Refusal :=
  .next (s.afterDraw.writeV x (s.drawnByte &&& kk))

end Sys2Proof.Machine
end

