-- ==== Sys2Proof/Machine/Control.lean ====
section
/-! DEFINITION. Control transfer (40_control_flow.md). `PC` already holds the instruction's address plus 2 (R95, R96). -/

namespace Sys2Proof.Machine

/-- RET (R111). -/
def execRet (s : State) : Host.Outcome State Fault Refusal :=
  ((pop s).andThen fun target s => .ok () { s with pc := target }).finish

/-- JP nnn (R112). -/
def execJp (nnn : Imm12) (s : State) : Host.Outcome State Fault Refusal :=
  .next { s with pc := zextAddress nnn }

/-- CALL nnn (R113). -/
def execCall (nnn : Imm12) (s : State) : Host.Outcome State Fault Refusal :=
  ((push s.pc s).andThen fun _ s => .ok () { s with pc := zextAddress nnn }).finish

/-- SE Vx, kk (R114). -/
def execSeKk (x : Reg) (kk : Byte) (s : State) : Host.Outcome State Fault Refusal :=
  .next (s.skipIf (s.readV x == kk))

/-- SNE Vx, kk (R115). -/
def execSneKk (x : Reg) (kk : Byte) (s : State) : Host.Outcome State Fault Refusal :=
  .next (s.skipIf (s.readV x != kk))

/-- SE Vx, Vy (R116). -/
def execSeVy (x y : Reg) (s : State) : Host.Outcome State Fault Refusal :=
  .next (s.skipIf (s.readV x == s.readV y))

/-- SNE Vx, Vy (R117). -/
def execSneVy (x y : Reg) (s : State) : Host.Outcome State Fault Refusal :=
  .next (s.skipIf (s.readV x != s.readV y))

/-- JP V0, nnn (R118), decoded only with `BNNN_MODE = JumpV0`. -/
def execJpV0 (nnn : Imm12) (s : State) : Host.Outcome State Fault Refusal :=
  .next { s with pc := zextAddress nnn + zextByte (s.readV 0) }

end Sys2Proof.Machine
end

