-- ==== Sys2Proof/Machine/Display.lean ====
section
/-! DEFINITION. The framebuffer controller (43_display.md): clear, and XOR composition with sticky collision. -/

namespace Sys2Proof.Machine

/-- One sprite bit equal to 1 over cell `j`: a collision when the cell was on, then the flip (R212, R213). -/
def drawBit (j : Nat) (s : State) : State :=
  (if s.cell j then s.writeV s.cfg.flagReg 1 else s).flipCell j

/-- One sprite row on a grid of `w` columns and `h` rows: the bits of `row`, column 0 the most significant one (R212). -/
def drawRow (w h ox oy r : Nat) (row : Byte) (cols : List Nat) (s : State) : State :=
  match cols with
  | []        => s
  | c :: rest =>
    drawRow w h ox oy r row rest (if row.getLsbD (7 - c) then drawBit (cellIndex w h ox oy r c) s else s)

/-- The rows of a sprite in increasing order, each byte read as its turn comes, up to the first out of range (R212). -/
def drawRows (w h ox oy : Nat) (rows : List Nat) (s : State) : Attempt Unit :=
  match rows with
  | []        => .ok () s
  | r :: rest =>
    (memRead (s.transferAddress r) s).andThen fun row s =>
      drawRows w h ox oy rest (drawRow w h ox oy r row (List.range 8) s)

/-- CLS (R211). -/
def execCls (s : State) : Host.Outcome State Fault Refusal :=
  .next s.clearCells

/-- DRW Vx, Vy, n (R212): the origin is read before VF is cleared (D16). -/
def execDrw (x y : Reg) (n : Nibble) (s : State) : Host.Outcome State Fault Refusal :=
  (drawRows s.cfg.fbW s.cfg.fbH (s.originX x) (s.originY y) (List.range n.toNat) (s.writeV s.cfg.flagReg 0)).finish

end Sys2Proof.Machine
end

