-- ==== Sys2Proof/Machine/KeypadTimers.lean ====
section
/-! DEFINITION. Keypad skips, halt for a key, timers and the unknown word (44_keypad_timers.md). -/

namespace Sys2Proof.Machine

/-- The keypad test of SKP and SKNP: the index check (D15), then a skip when `KEYS[V[x]]` is `wanted`. -/
def skipOnKey (x : Reg) (wanted : Bool) (s : State) : Attempt Unit :=
  let k := (s.readV x).toNat
  if s.cfg.numKeys ≤ k then .raised .keyIndex s else .ok () (s.skipIf (s.keys.getLsbD k == wanted))

/-- SKP Vx (R230). -/
def execSkp (x : Reg) (s : State) : Host.Outcome State Fault Refusal :=
  (skipOnKey x true s).finish

/-- SKNP Vx (R231). -/
def execSknp (x : Reg) (s : State) : Host.Outcome State Fault Refusal :=
  (skipOnKey x false s).finish

/-- LD Vx, K (R232): `V[x]` is written when the scheduler resumes (R276). -/
def execLdVxK (x : Reg) (s : State) : Host.Outcome State Fault Refusal :=
  .next (s.haltForKey x)

/-- LD Vx, DT (R233). -/
def execLdVxDt (x : Reg) (s : State) : Host.Outcome State Fault Refusal :=
  .next (s.writeV x s.dt)

/-- LD DT, Vx (R234), by `FX15_MODE`. -/
def execLdDtVx (x : Reg) (s : State) : Host.Outcome State Fault Refusal :=
  .next (s.setDelayTimer (s.timerOperand x))

/-- LD ST, Vx (R235). -/
def execLdStVx (x : Reg) (s : State) : Host.Outcome State Fault Refusal :=
  .next { s with st := s.readV x }

/-- UNKNOWN (R236): nothing; the diagnostic strobe is `diagPort` (R283). -/
def execUnknown (_w : Word) (s : State) : Host.Outcome State Fault Refusal :=
  .next s

end Sys2Proof.Machine
end

