-- ==== Sys2Proof/Machine/Loader.lean ====
section
/-! DEFINITION. Reset and the reset-time loader (70_reset_and_hazards.md R300 to R304). -/

namespace Sys2Proof.Machine

/-- The bytes of an image placed verbatim from an address on (R304). -/
def Memory.place (a : Nat) (image : List Byte) (m : Memory) : Memory :=
  match image with
  | []        => m
  | u :: rest => Memory.place (a + 1) rest (m.write a u)

/-- The state `Reset` establishes before the image is copied: every piece of state at its reset value, the bytes of `FONT` from
`FONT_BASE` on (R38, R300). -/
def State.initial (c : Config) : State :=
  { State.blank c with mem := Memory.place c.fontBase c.font [] }

/-- `Reset(image)` (R300): every piece of state at its reset value, the size check before the image is copied (R303), the image from
`PROGRAM_START` on. -/
def State.resetWith (c : Config) (image : List Byte) : State :=
  let s := State.initial c
  if c.memSize - c.programStart < image.length then s.enterFatal .imageTooLarge
  else { s with mem := Memory.place c.programStart image s.mem }

/-- A `reset` event of a running machine (R278, R302): a full reset under the same parameters. The draws of the `rand` port go on,
and `rest` is what the environment has still to do. -/
def State.resetEvent (s : State) (image : List Byte) (rest : List Input) : State :=
  { State.resetWith s.cfg image with draws := s.draws, inputs := rest }

end Sys2Proof.Machine
end

