-- ==== Sys2Proof/Machine/Scheduler.lean ====
section
/-! DEFINITION. The instruction step (30_encoding.md R95), the timer subsystem and the tick scheduler (60_exceptions.md R270 to
R277): `tick` is the spec's whole tick, and `machineStep` performs it one instruction or one scheduler event at a time. -/

namespace Sys2Proof.Machine

/-! ## One instruction -/

/-- `Step()` (R95): fetch, decode, advance `PC`, execute. A fetch that raises leaves `PC` as it was. -/
def instrStep (s : State) : Host.Outcome State Fault Refusal :=
  match fetch s with
  | .ok w s     => exec (decode s.cfg.bnnnMode w) s.advancePc
  | .raised k s => .next (s.enterFatal k)

/-! ## The timer subsystem (R270, R271) -/

/-- The loop of `TimerUpdate` over `DT` and `TIMER_ACC`: one decrement for every full `T_TIMER`. -/
def decay (tTimer : Nat) (dt acc : Nat) : Nat × Nat :=
  match dt with
  | 0     => (0, acc)
  | d + 1 => if tTimer ≤ acc then decay tTimer d (acc - tTimer) else (d + 1, acc)

/-- `TimerUpdate(elapsed)` (R270): the accumulator is 0 whenever `DT` is (R271). -/
def timerUpdate (elapsed : Nat) (s : State) : State :=
  let r := decay s.cfg.tTimer s.dt.toNat (s.timerAcc + elapsed)
  { s with dt := BitVec.ofNat 8 r.1, timerAcc := if r.1 = 0 then 0 else r.2 }

/-! ## A whole tick (R273 to R277) -/

/-- The guard of the batch loop: RUNNING with more than one instruction's time left (R273, strict). -/
def batchGoes (s : State) : Bool := s.run == .running && decide (s.cfg.tInstr < s.cycleAcc)

/-- The deduction of one instruction's time (R273). -/
def deduct (s : State) : State := { s with cycleAcc := s.cycleAcc - s.cfg.tInstr }

/-- The batch loop of R273; `fuel` bounds the turns, and `runBatch` gives more than the budget can buy. -/
def batchLoop (fuel : Nat) (s : State) : Host.Outcome State Fault Refusal :=
  match fuel with
  | 0     => .next s
  | n + 1 =>
    if batchGoes s then
      match instrStep s with
      | .next t    => batchLoop n (deduct t)
      | .fault f   => .fault f
      | .refused r => .refused r
    else .next s

/-- The budget is discarded on a halt (R274). -/
def discardIfHalted (s : State) : State := if s.run = .haltedForKey then { s with cycleAcc := 0 } else s

/-- `RunBatch(elapsed)` (R273, R274). -/
def runBatch (elapsed : Nat) (s : State) : Host.Outcome State Fault Refusal :=
  let s := { s with cycleAcc := s.cycleAcc + elapsed }
  match batchLoop (s.cycleAcc / s.cfg.tInstr + 1) s with
  | .next t    => .next (discardIfHalted t)
  | .fault f   => .fault f
  | .refused r => .refused r

/-- Whether `RUN` is FATAL. -/
def State.isFatal (s : State) : Bool :=
  match s.run with
  | .fatal _      => true
  | .running      => false
  | .haltedForKey => false

/-- A tick that finds the core halted: the budget discarded, the resume, the timer (R275, R276). -/
def haltedTick (elapsed : Nat) (s : State) : State := timerUpdate elapsed { s with cycleAcc := 0 }.resumeIfKey

/-- `Tick(elapsed, keys_in)` (R277). -/
def tick (elapsed : Nat) (keysIn : BitVec 16) (s : State) : Host.Outcome State Fault Refusal :=
  match s.run with
  | .fatal _      => .next s
  | .haltedForKey => .next (haltedTick elapsed { s with keys := keysIn })
  | .running      =>
    match runBatch elapsed { s with keys := keysIn } with
    | .next t    => .next (if t.isFatal then t else timerUpdate elapsed t)
    | .fault f   => .fault f
    | .refused r => .refused r

/-! ## The same tick, one event at a time -/

/-- The start of a tick: the keypad sample, then either the whole of a halted tick, or the budget of a batch (R273, R277). -/
def beginTick (elapsed : Nat) (keysIn : BitVec 16) (s : State) : State :=
  let s := { s with keys := keysIn }
  if s.run = .haltedForKey then haltedTick elapsed s
  else { s with cycleAcc := s.cycleAcc + elapsed, batch := some elapsed }

/-- A fatal condition ends the tick in progress: no timer update (R261, R277). -/
def closeIfFatal (s : State) : State := if s.isFatal then { s with batch := none } else s

/-- One instruction of a batch (R273). -/
def batchInstr (s : State) : Host.Outcome State Fault Refusal :=
  match instrStep s with
  | .next t    => .next (closeIfFatal (deduct t))
  | .fault f   => .fault f
  | .refused r => .refused r

/-- The end of a running tick: the budget discarded on a halt, then the timer (R274, R277). -/
def endTick (elapsed : Nat) (s : State) : State :=
  { timerUpdate elapsed (discardIfHalted s) with batch := none }

/-- With no tick in progress and no input at hand the model makes the moves of R285 that need none: an instruction when RUNNING,
the resume when halted (the state stays when no key is pressed). -/
def freeStep (s : State) : Host.Outcome State Fault Refusal :=
  match s.run with
  | .running      => instrStep s
  | .haltedForKey => .next s.resumeIfKey
  | .fatal k      => .fault (.fatal k)

/-- The step of a core that has not aborted: the tick in progress goes on, or the next input lands, or `freeStep`. -/
def liveStep (s : State) : Host.Outcome State Fault Refusal :=
  match s.batch with
  | some elapsed => if batchGoes s then batchInstr s else .next (endTick elapsed s)
  | none =>
    match s.inputs with
    | .tick elapsed keysIn :: rest => .next (beginTick elapsed keysIn { s with inputs := rest })
    | .reset image :: rest         => .next (s.resetEvent image rest)
    | []                           => freeStep s

/-- The step of a core in FATAL: a tick passes with nothing moved (R261), a reset resets (R302), and with no input the step is a
fault (log 1). -/
def abortedStep (k : FatalKind) (s : State) : Host.Outcome State Fault Refusal :=
  match s.inputs with
  | .reset image :: rest => .next (s.resetEvent image rest)
  | .tick _ _ :: rest    => .next { s with inputs := rest }
  | []                   => .fault (.fatal k)

/-- One step of the machine. -/
def machineStep (s : State) : Host.Outcome State Fault Refusal :=
  match s.run with
  | .fatal k      => abortedStep k s
  | .running      => liveStep s
  | .haltedForKey => liveStep s

end Sys2Proof.Machine
end

