-- ==== Sys2Proof/Machine/Step.lean ====
section
/-! DEFINITION. The step of the machine, and the placing of one instruction where it fetches next. -/

namespace Sys2Proof.Machine

/-- One step: one instruction, or one event of the scheduler. -/
def step (s : State) : Host.Outcome State Fault Refusal := machineStep s

/-- `s` with a table word of `nbits` bits (the bits above them 0) stored big-endian at `PC`, and with what the next step needs to
fetch it: RUNNING, no tick in progress, no input pending. Where `PC` names no two backed bytes nothing can be stored or fetched. -/
def State.withFetchWord (s : State) (nbits w : Nat) : State :=
  let word : Word := BitVec.ofNat 16 (w % 2 ^ nbits)
  { s with
    mem    := if s.pc.toNat + 1 < s.cfg.memSize then Memory.place s.pc.toNat (bytesOfWord word) s.mem else s.mem
    run    := .running
    batch  := none
    inputs := [] }

end Sys2Proof.Machine
end

