-- ==== Sys2Proof/Machine/Abstraction.lean ====
section
/-! DEFINITION. The relation of 60_exceptions.md R285 that abstracts the tick scheduler's pacing away. -/

namespace Sys2Proof.Machine

/-- The moves R285 allows between instruction steps, from a state whose `RUN` is not FATAL. -/
inductive Move : State → State → Prop where
  /-- (a) one `Step` when RUNNING. -/
  | instr (s t : State) : s.run = .running → instrStep s = .next t → Move s t
  /-- (b) `KEYS <- any 16 bits`. -/
  | sample (s : State) (keys : BitVec 16) : s.isFatal = false → Move s { s with keys := keys }
  /-- (c) `DT <- DT − 1` when `DT > 0`. -/
  | decrement (s : State) : s.isFatal = false → s.dt ≠ 0 → Move s { s with dt := s.dt - 1 }
  /-- (d) the resume when halted and some key is pressed. -/
  | resume (s : State) : s.run = .haltedForKey → s.keys ≠ 0 → Move s s.resumeIfKey

/-- The state without its pacing: the two accumulators of R36 and the model's own record of ticks. -/
def State.unpaced (s : State) : State := { s with cycleAcc := 0, timerAcc := 0, batch := none, inputs := [] }

end Sys2Proof.Machine
end

