-- ==== Sys2Proof/Machine/Ports.lean ====
section
/-! DEFINITION. The output ports as functions of the state (60_exceptions.md R278): they show the state between steps and change
nothing (43_display.md R215). -/

namespace Sys2Proof.Machine

/-- The `fatal` port's code of a kind (R262). -/
def FatalKind.code : FatalKind → Nat
  | .memRange       => 1
  | .regIndex       => 2
  | .stackOverflow  => 3
  | .stackUnderflow => 4
  | .imageTooLarge  => 5
  | .keyIndex       => 6

/-- The `fatal` port: 0, or the code of the kind (R278). -/
def fatalPort (s : State) : Nat :=
  match s.run with
  | .fatal k      => k.code
  | .running      => 0
  | .haltedForKey => 0

/-- The `run_state` port (R272, R278). -/
def runStatePort (s : State) : RunState := s.run

/-- The framebuffer as bytes in index order, one for each cell, of two byte values that are given (R215). -/
def fbPort (fbOn fbOff : Byte) (s : State) : List Byte :=
  (List.range (s.cfg.fbW * s.cfg.fbH)).map fun j => if s.cell j then fbOn else fbOff

/-- The `fb` port: each cell as `FB_ON` or `FB_OFF`, whose values are free (R215, R278, D27). -/
def fbOutput (s : State) : List Byte := fbPort Config.fbOn Config.fbOff s

/-- The `diag` port: the word the next instruction step executes, when RUNNING and it decodes to UNKNOWN (R236, R283). -/
def diagPort (s : State) : Option Word :=
  match s.run, fetch s with
  | .running, .ok w _ => if decode s.cfg.bnnnMode w = .unknown w then some w else none
  | _, _              => none

end Sys2Proof.Machine
end

