-- ==== Sys2Proof/Safety.lean ====
section
/-! DEFINITION. The terms the claims use: the invariant of every step, the ends of a run, frames, which instruction may write which
state, and runs of several instructions. -/

namespace Sys2Proof

open Sys2Proof.Machine

/-! ## The invariant and the ends of a run -/

/-- The legal values of `SP`: `STACK_LOW + 2·k` for `k = 0..STACK_DEPTH` (10_state.md R28). -/
abbrev Machine.State.spLegal (s : State) : Prop :=
  s.cfg.stackLow ≤ s.sp.toNat ∧ s.sp.toNat ≤ s.cfg.stackTop ∧ s.sp.toNat % 2 = 0

/-- While `DT` is 0 the timer's accumulator stays 0 (60_exceptions.md R271). -/
abbrev Machine.State.timerHeld (s : State) : Prop := s.dt = 0 → s.timerAcc = 0

/-- The invariant every step keeps: sensible parameters; the memory list canonical and inside the backed bytes (R32, R50); a
legal `SP` (R28); no tick in progress after a fatal condition (R261); no time accumulated for a stopped timer (R271). -/
abbrev Machine.State.inv (s : State) : Prop :=
  s.cfg.wf ∧ s.mem.wf ∧ (∀ c ∈ s.mem, c.1 < s.cfg.memSize) ∧ s.spLegal ∧ (s.isFatal = true → s.batch = none) ∧ s.timerHeld

/-- The word at `PC`, when the fetch raises nothing. -/
def Machine.State.wordAtPc (s : State) : Option Word :=
  match fetch s with
  | .ok w _     => some w
  | .raised _ _ => none

/-- A run ends well at a RUNNING state whose next word is a jump to itself, `1nnn` with the 12-bit `nnn = PC` (60_exceptions.md R286). -/
def Machine.State.endsWell (s : State) : Bool :=
  s.run == .running && decide (s.pc.toNat < 2 ^ 12) && decide (s.wordAtPc = some (0x1000 ||| s.pc))

/-- A run ends badly in FATAL (R286). -/
def Machine.State.endsBadly (s : State) : Bool := s.isFatal

/-! ## Frames -/

/-- Every byte of memory reads in `t` as it does in `s`. -/
abbrev Machine.State.sameBytes (s t : State) : Prop := ∀ a, t.mem.read a = s.mem.read a

/-- From `s` to `t` nothing changes but general registers. -/
abbrev Machine.State.onlyRegisters (s t : State) : Prop := s.sameBytes t ∧ t = { s with v := t.v }

/-- From `s` to `t` nothing changes but `PC`. -/
abbrev Machine.State.onlyPc (s t : State) : Prop := s.sameBytes t ∧ t = { s with pc := t.pc }

/-- From `s` to `t` nothing changes but `I`. -/
abbrev Machine.State.onlyI (s t : State) : Prop := s.sameBytes t ∧ t = { s with i := t.i }

/-- Every byte outside `from, …, from + count − 1` reads in `t` as it does in `s`. -/
abbrev Machine.State.sameBytesOutside (s t : State) (start count : Nat) : Prop :=
  ∀ a, (a < start ∨ start + count ≤ a) → t.mem.read a = s.mem.read a

/-- What register `r` holds after an instruction that gives `V[x]` a result and `V[15]` a flag, `old` being its value before:
R140 (c) with either `FLAG_ORDER`. -/
def resultAndFlag (order : FlagOrder) (x r : Reg) (old result flag : Nat) : Nat :=
  match order with
  | .flagLast   => if r = 15 then flag else if r = x then result else old
  | .resultLast => if r = x then result else if r = 15 then flag else old

/-- The bit a sprite puts over the cell under row `r`, column `c`: bit `7 − c` of the byte at `I + r` (R212). -/
def Machine.State.spriteBit (s : State) (r c : Nat) : Bool := (s.mem.read (s.i.toNat + r)).getLsbD (7 - c)

/-! ## Which instruction may write which state (10_state.md R39) -/

/-- CLS and DRW write FB (R34). -/
def Instr.writesFb : Instr → Bool
  | .cls | .drw _ _ _ => true
  | _ => false

/-- RET and CALL write SP (R28). -/
def Instr.writesSp : Instr → Bool
  | .ret | .call _ => true
  | _ => false

/-- LD I, ADD I and LD F write I (R27). -/
def Instr.writesI : Instr → Bool
  | .ldI _ | .addI _ | .ldF _ => true
  | _ => false

/-- CALL, LD B and LD [I] write MEM (R56). -/
def Instr.writesMem : Instr → Bool
  | .call _ | .ldB _ | .dump _ => true
  | _ => false

/-- Jumps, CALL, RET and skips write PC beyond the advance (R26). -/
def Instr.writesPc : Instr → Bool
  | .ret | .jp _ | .call _ | .jpV0 _ | .seKk _ _ | .sneKk _ _ | .seVy _ _ | .sneVy _ _ | .skp _ | .sknp _ => true
  | _ => false

/-- The instructions that write VF as a flag (R23). -/
def Instr.writesFlag : Instr → Bool
  | .addVy _ _ | .subVy _ _ | .shr _ _ | .subnVy _ _ | .shl _ _ | .drw _ _ _ => true
  | _ => false

/-- The instructions that can raise each fatal kind (R262). -/
def Instr.mayRaise (i : Instr) (k : FatalKind) : Bool :=
  match k with
  | .memRange       => match i with | .drw _ _ _ | .ldB _ | .dump _ | .load _ => true | _ => false
  | .stackOverflow  => match i with | .call _ => true | _ => false
  | .stackUnderflow => match i with | .ret => true | _ => false
  | .keyIndex       => match i with | .skp _ | .sknp _ => true | _ => false
  | .regIndex       => false
  | .imageTooLarge  => false

/-- Register `r` is a destination of the instruction, as `V[x]` or in `V[0]..V[x]` (R39). -/
def Instr.destination (i : Instr) (r : Reg) : Bool :=
  match i with
  | .ldKk x _ | .addKk x _ | .ldVy x _ | .orVy x _ | .andVy x _ | .xorVy x _ | .addVy x _ | .subVy x _ | .shr x _
  | .subnVy x _ | .shl x _ | .rnd x _ | .ldVxDt x => r == x
  | .load x => decide (r ≤ x)
  | _ => false

/-! ## Runs of several instructions -/

/-- Instructions executed one after another, `PC` left to them. -/
def execAll (is : List Instr) (s : State) : Host.Outcome State Fault Refusal :=
  match is with
  | []        => .next s
  | i :: rest =>
    match exec i s with
    | .next t    => execAll rest t
    | .fault f   => .fault f
    | .refused r => .refused r

/-- `n` steps of the machine, one after another, up to the first that answers no next state. -/
def steps (n : Nat) (s : State) : Host.Outcome State Fault Refusal :=
  match n with
  | 0     => .next s
  | k + 1 =>
    match step s with
    | .next t    => steps k t
    | .fault f   => .fault f
    | .refused r => .refused r

/-- `n` instruction steps of R95, one after another. -/
def instrSteps (n : Nat) (s : State) : Host.Outcome State Fault Refusal :=
  match n with
  | 0     => .next s
  | k + 1 =>
    match instrStep s with
    | .next t    => instrSteps k t
    | .fault f   => .fault f
    | .refused r => .refused r

end Sys2Proof
end

