-- ==== Sys2Proof/Certificates/Slice0/Obligations.lean ====
section
/-! DEFINITION. The statements for the provers. Each docstring names the rules of spec/ it formalises. A claim about an
instruction gives its word as the pattern of the opcode table, numerically, and its effect through `exec`, which R95 runs with `PC`
already advanced. `FATAL` is a next state whose `run` says so (log 1). Times are in microseconds. A premise `fixedRows` says that the
rows of R7 without an alternative have the values R7 fixes (log 4). -/

open Sys2Proof Sys2Proof.Machine

/-! ## Reset and the loader -/

/-- Derived (R38, R300, R304; `PC`, `SP` and the accumulators by the spec's decisions D18, D4, D24): the value of every piece of
state after a reset with an image that fits, whatever the bytes of `FONT` and the parameters that have alternatives. -/
def Obligations.ResetEstablishesEveryValue : Prop :=
  ∀ (c : Config) (image : List Byte), c.fixedRows → image.length ≤ c.memSize - 0x200 →
    ∃ s, State.resetWith c image = s ∧ (∀ r, s.readV r = 0) ∧ s.i = 0 ∧ s.pc = 0x200 ∧ s.sp = 0x200 ∧ s.dt = 0 ∧ s.st = 0 ∧
      s.run = .running ∧ s.haltReg = 0 ∧
      (∀ a, s.mem.read a =
        if a < 80 then c.font.getD a 0 else if 0x200 ≤ a then image.getD (a - 0x200) 0 else 0) ∧
      (∀ j, s.cell j = false) ∧ (∀ k, s.keys.getLsbD k = false) ∧ s.cycleAcc = 0 ∧ s.timerAcc = 0 ∧ s.cfg = c

/-- Derived (R303; that nothing is loaded is the spec's decision D36): 3583 bytes are the longest image; a longer one leaves
FATAL(IMAGE_TOO_LARGE) with nothing loaded; the empty image is accepted, and the core then runs zero-filled memory, UNKNOWN
words. The last two clauses rest on the model's own choices (DESIGN CHOICE): that a step of the reset state with no tick at hand
runs an instruction (log 3, log 6; R301 starts execution at the first tick), and that the `diag` port shows the word before it
runs (log 13). -/
def Obligations.LoaderRejectsOversizeImage : Prop :=
  (∀ image : List Byte, (State.resetWith Config.documented image).run =
      if image.length ≤ 3583 then RunState.running else .fatal .imageTooLarge) ∧
  (∀ (c : Config) (image : List Byte), c.memSize - c.programStart < image.length →
      State.resetWith c image = { State.initial c with run := .fatal .imageTooLarge }) ∧
  State.resetWith Config.documented [] = State.reset ∧
  step State.reset = .next { State.reset with pc := 0x202 } ∧ diagPort State.reset = some 0

/-- Derived: the reset state meets the invariant, and so does every state a reset with an image leaves. -/
def Obligations.ResetMeetsInvariant : Prop :=
  State.reset.inv ∧ ∀ (c : Config) (image : List Byte), c.wf → (State.resetWith c image).inv

/-! ## Encoding -/

/-- Derived (R82, R84, R100): decoding the word of a well-formed instruction gives it back, every operand at every value. -/
def Obligations.DecodeOfEncodeIsIdentity : Prop :=
  ∀ (m : BnnnMode) (i : Instr), i.wf m = true → decode m (encode i) = i

/-- Derived (R84): every word decodes to a well-formed instruction whose word it is; so no two words mean the same and the
UNKNOWN words are exactly those outside the catalogue. -/
def Obligations.EncodeOfDecodeIsIdentity : Prop :=
  ∀ (m : BnnnMode) (w : Word), encode (decode m w) = w ∧ (decode m w).wf m = true ∧
    (decode m w = .unknown w ↔ catalogued m w = false)

/-- Derived (R86, its list of words): the UNKNOWN space, by the nibbles of the word. -/
def Obligations.UnknownSpaceByNibbles : Prop :=
  ∀ (m : BnnnMode) (w : Word), decode m w = .unknown w ↔
    (let op := w.toNat / 0x1000; let n := w.toNat % 0x10; let kk := w.toNat % 0x100
      (op = 0 ∧ w.toNat ≠ 0x00E0 ∧ w.toNat ≠ 0x00EE) ∨ (op = 0xB ∧ m = .unknown) ∨ ((op = 5 ∨ op = 9) ∧ n ≠ 0) ∨
      (op = 8 ∧ 8 ≤ n ∧ n ≠ 0xE) ∨ (op = 0xE ∧ kk ≠ 0x9E ∧ kk ≠ 0xA1) ∨
      (op = 0xF ∧ kk ∉ [0x07, 0x0A, 0x15, 0x18, 0x1E, 0x29, 0x33, 0x55, 0x65]))

/-- Derived (95_test_vectors.md DEC-1 to DEC-20): words written out from the encoding decode to what they stand for. -/
def Obligations.VectorWordsDecode : Prop :=
  decode .unknown 0x00E0 = .cls ∧ decode .unknown 0x00EE = .ret ∧ decode .unknown 0x00E1 = .unknown 0x00E1 ∧
  decode .unknown 0x5120 = .seVy 1 2 ∧ decode .unknown 0x5121 = .unknown 0x5121 ∧ decode .unknown 0x9AB0 = .sneVy 10 11 ∧
  decode .unknown 0x801E = .shl 0 1 ∧ decode .unknown 0x801F = .unknown 0x801F ∧
  decode .unknown 0xB123 = .unknown 0xB123 ∧ decode .jumpV0 0xB123 = .jpV0 0x123 ∧
  decode .unknown 0xE19E = .skp 1 ∧ decode .unknown 0xF00A = .ldVxK 0 ∧ decode .unknown 0xD015 = .drw 0 1 5 ∧
  decode .unknown 0xC3A5 = .rnd 3 0xA5

/-! ## Fetch and the instruction step -/

/-- Derived (R95, R54; the byte order is the spec's general knowledge G4, the plain sum `PC + 1` its decision D21): when
RUNNING, between ticks and with no input at hand (log 3), a step fetches the big-endian word at `PC`, decodes it, advances
`PC` by 2 and executes; a fetch outside the backed bytes is FATAL(MEM_RANGE) with `PC` not advanced. -/
def Obligations.StepRunsDecodedInstruction : Prop :=
  ∀ s : State, s.run = .running → s.batch = none → s.inputs = [] →
    (∀ w : Word, s.pc.toNat + 1 < s.cfg.memSize →
      w.toNat = 256 * (s.mem.read s.pc.toNat).toNat + (s.mem.read (s.pc.toNat + 1)).toNat →
      step s = exec (decode s.cfg.bnnnMode w) { s with pc := BitVec.ofNat 16 ((s.pc.toNat + 2) % 65536) }) ∧
    (s.cfg.memSize ≤ s.pc.toNat + 1 → step s = .next { s with run := .fatal .memRange })

/-- Derived (R95, R273): inside a tick, with more than one instruction's time left, a step does the same and deducts the time of
one instruction; a fatal condition ends the tick (the record `batch` is the model's, log 3). -/
def Obligations.BatchStepRunsDecodedInstruction : Prop :=
  ∀ (s t : State) (elapsed : Nat) (w : Word), s.run = .running → s.batch = some elapsed → s.cfg.tInstr < s.cycleAcc →
    s.pc.toNat + 1 < s.cfg.memSize →
    w.toNat = 256 * (s.mem.read s.pc.toNat).toNat + (s.mem.read (s.pc.toNat + 1)).toNat →
    exec (decode s.cfg.bnnnMode w) { s with pc := s.pc + 2 } = .next t →
    step s = .next { t with
      cycleAcc := s.cycleAcc - s.cfg.tInstr
      batch := if t.isFatal then none else some elapsed }

/-- Derived (R97): every instruction, in every state, answers a next state; none is refused and none faults. -/
def Obligations.EveryInstructionAnswers : Prop :=
  ∀ (i : Instr) (s : State), ∃ t, exec i s = .next t

/-- Derived (R262, the column "raised by"; R24): from a state of the invariant that has not aborted, an instruction reaches
FATAL only with a kind the table gives it. REG_INDEX and IMAGE_TOO_LARGE come from no instruction, MEM_RANGE from no CALL or
RET. -/
def Obligations.FatalKindsByInstruction : Prop :=
  ∀ (i : Instr) (s t : State) (k : FatalKind), s.inv → s.isFatal = false → exec i s = .next t → t.run = .fatal k →
    i.mayRaise k = true

/-- Derived (R23, R26 to R29, R34, R35, R39; that LD DT, Vx alone touches `TIMER_ACC` is log 18, DEDUCED): which instruction may write
which piece of state, over every instruction; VF is the register FLAG_REG. -/
def Obligations.InstructionsWriteOnlyTheirState : Prop :=
  ∀ (i : Instr) (s t : State), exec i s = .next t →
    (i.writesFb = false → t.fb = s.fb) ∧ (i.writesSp = false → t.sp = s.sp) ∧ (i.writesI = false → t.i = s.i) ∧
    (i.writesMem = false → s.sameBytes t) ∧ (i.writesPc = false → t.pc = s.pc) ∧
    ((∀ x, i ≠ .ldDtVx x) → t.dt = s.dt ∧ t.timerAcc = s.timerAcc) ∧ ((∀ x, i ≠ .ldStVx x) → t.st = s.st) ∧
    ((∀ x, i ≠ .ldVxK x) → t.haltReg = s.haltReg) ∧
    (∀ r, i.destination r = false → (r ≠ s.cfg.flagReg ∨ i.writesFlag = false) → t.readV r = s.readV r) ∧
    (t.run = s.run ∨ (∃ x, i = .ldVxK x ∧ t.run = .haltedForKey) ∨ ∃ k, t.run = .fatal k) ∧
    ((∀ x kk, i ≠ .rnd x kk) → t.draws = s.draws) ∧
    t.keys = s.keys ∧ t.cycleAcc = s.cycleAcc ∧ t.cfg = s.cfg ∧ t.batch = s.batch ∧
    t.inputs = s.inputs

/-! ## Control transfer -/

/-- R112. -/
def Obligations.JumpGoesToImmediate : Prop :=
  ∀ (m : BnnnMode) (nnn : Imm12) (s : State),
    decode m (BitVec.ofNat 16 (0x1000 + nnn.toNat)) = .jp nnn ∧
    ∃ t, exec (.jp nnn) s = .next t ∧ t.pc.toNat = nnn.toNat ∧ s.onlyPc t

/-- Derived (R113, R58; the boundaries are the spec's decisions D3, D4): with a slot free, the return address goes big-endian
to the new top of the stack and `PC` to the target; with 16 slots in use nothing is written and the core is
FATAL(STACK_OVERFLOW). -/
def Obligations.CallPushesReturnAddress : Prop :=
  ∀ (m : BnnnMode) (nnn : Imm12) (s : State), s.cfg.wf → s.sp.toNat ≤ 0x200 →
    decode m (BitVec.ofNat 16 (0x2000 + nnn.toNat)) = .call nnn ∧
    (0x1E2 ≤ s.sp.toNat → ∃ t, exec (.call nnn) s = .next t ∧ t.pc.toNat = nnn.toNat ∧ t.sp.toNat = s.sp.toNat - 2 ∧
      (t.mem.read (s.sp.toNat - 2)).toNat = s.pc.toNat / 256 ∧ (t.mem.read (s.sp.toNat - 1)).toNat = s.pc.toNat % 256 ∧
      s.sameBytesOutside t (s.sp.toNat - 2) 2 ∧ t = { s with pc := t.pc, sp := t.sp, mem := t.mem }) ∧
    (s.sp.toNat < 0x1E2 → exec (.call nnn) s = .next { s with run := .fatal .stackOverflow })

/-- R111: `PC` takes the two bytes at `SP`, the high one first, and `SP` goes up by 2; with the stack empty the core is
FATAL(STACK_UNDERFLOW), `PC` and `SP` as they were. -/
def Obligations.ReturnPopsTarget : Prop :=
  ∀ (m : BnnnMode) (s : State), s.cfg.wf → decode m 0x00EE = .ret ∧
    (s.sp.toNat + 2 ≤ 0x200 → ∃ t, exec .ret s = .next t ∧
      t.pc.toNat = 256 * (s.mem.read s.sp.toNat).toNat + (s.mem.read (s.sp.toNat + 1)).toNat ∧
      t.sp.toNat = s.sp.toNat + 2 ∧ s.sameBytes t ∧ t = { s with pc := t.pc, sp := t.sp }) ∧
    (0x200 < s.sp.toNat + 2 → exec .ret s = .next { s with run := .fatal .stackUnderflow })

/-- Derived (R58, R59, L1-4): a CALL and then a RET come back to the word after the CALL with the stack pointer restored and
only the freed slot's bytes changed. -/
def Obligations.CallThenReturnRestores : Prop :=
  ∀ (nnn : Imm12) (s : State), s.cfg.wf → 0x1E2 ≤ s.sp.toNat → s.sp.toNat ≤ 0x200 →
    ∃ t, execAll [.call nnn, .ret] s = .next t ∧ t = { s with mem := t.mem } ∧ s.sameBytesOutside t (s.sp.toNat - 2) 2

/-- Derived (R58, R113, L1-4): sixteen calls from an empty stack succeed and a seventeenth is FATAL(STACK_OVERFLOW), whatever
the targets. -/
def Obligations.SixteenCallsThenOverflow : Prop :=
  ∀ (s : State) (targets : List Imm12), s.cfg.wf → s.run = .running → s.sp = 0x200 → targets.length = 16 →
    ∃ t, execAll (targets.map .call) s = .next t ∧ t.run = .running ∧ t.sp = 0x1E0 ∧
      ∀ nnn, exec (.call nnn) t = .next { t with run := .fatal .stackOverflow }

/-- R114, R115, R116, R117: each skip adds 2 to the advanced `PC` exactly when its comparison holds, and changes
nothing else. -/
def Obligations.SkipsCompareAndMovePc : Prop :=
  ∀ (m : BnnnMode) (x y : Reg) (kk : Byte) (s : State),
    let past : Word := BitVec.ofNat 16 ((s.pc.toNat + 2) % 65536)
    let a := (s.readV x).toNat; let b := (s.readV y).toNat; let k := kk.toNat
    decode m (BitVec.ofNat 16 (0x3000 + 0x100 * x.val + k)) = .seKk x kk ∧
    exec (.seKk x kk) s = .next { s with pc := if a = k then past else s.pc } ∧
    decode m (BitVec.ofNat 16 (0x4000 + 0x100 * x.val + k)) = .sneKk x kk ∧
    exec (.sneKk x kk) s = .next { s with pc := if a ≠ k then past else s.pc } ∧
    decode m (BitVec.ofNat 16 (0x5000 + 0x100 * x.val + 0x10 * y.val)) = .seVy x y ∧
    exec (.seVy x y) s = .next { s with pc := if a = b then past else s.pc } ∧
    decode m (BitVec.ofNat 16 (0x9000 + 0x100 * x.val + 0x10 * y.val)) = .sneVy x y ∧
    exec (.sneVy x y) s = .next { s with pc := if a ≠ b then past else s.pc }

/-- Derived (R118, which the spec marks as general knowledge and decision D7): with `BNNN_MODE = JumpV0` the word `Bnnn` jumps
to `nnn + V[0]`, with no wrap; otherwise it is UNKNOWN. -/
def Obligations.JumpV0AddsRegisterZero : Prop :=
  ∀ (nnn : Imm12) (s : State),
    decode .jumpV0 (BitVec.ofNat 16 (0xB000 + nnn.toNat)) = .jpV0 nnn ∧
    decode .unknown (BitVec.ofNat 16 (0xB000 + nnn.toNat)) = .unknown (BitVec.ofNat 16 (0xB000 + nnn.toNat)) ∧
    ∃ t, exec (.jpV0 nnn) s = .next t ∧ t.pc.toNat = nnn.toNat + (s.readV 0).toNat ∧ s.onlyPc t

/-! ## ALU -/

/-- R141, R142: load and add immediate; the sum is modulo 256 and no flag is touched. -/
def Obligations.ImmediateLoadAndAdd : Prop :=
  ∀ (m : BnnnMode) (x : Reg) (kk : Byte) (s : State),
    decode m (BitVec.ofNat 16 (0x6000 + 0x100 * x.val + kk.toNat)) = .ldKk x kk ∧
    (∃ t, exec (.ldKk x kk) s = .next t ∧ s.onlyRegisters t ∧
      ∀ r, (t.readV r).toNat = if r = x then kk.toNat else (s.readV r).toNat) ∧
    decode m (BitVec.ofNat 16 (0x7000 + 0x100 * x.val + kk.toNat)) = .addKk x kk ∧
    (∃ t, exec (.addKk x kk) s = .next t ∧ s.onlyRegisters t ∧
      ∀ r, (t.readV r).toNat = if r = x then ((s.readV x).toNat + kk.toNat) % 256 else (s.readV r).toNat)

/-- Derived (R143 to R146; that OR, AND, XOR leave VF is the spec's own inference from R23): copy, OR, AND, XOR of registers,
bit by bit; VF changes only as `V[x]`. -/
def Obligations.RegisterCopyAndLogic : Prop :=
  ∀ (m : BnnnMode) (x y : Reg) (s : State),
    (decode m (BitVec.ofNat 16 (0x8000 + 0x100 * x.val + 0x10 * y.val)) = .ldVy x y ∧
      ∃ t, exec (.ldVy x y) s = .next t ∧ s.onlyRegisters t ∧
        ∀ r, t.readV r = if r = x then s.readV y else s.readV r) ∧
    (decode m (BitVec.ofNat 16 (0x8001 + 0x100 * x.val + 0x10 * y.val)) = .orVy x y ∧
      ∃ t, exec (.orVy x y) s = .next t ∧ s.onlyRegisters t ∧ (∀ r, r ≠ x → t.readV r = s.readV r) ∧
        ∀ b, b < 8 → (t.readV x).getLsbD b = ((s.readV x).getLsbD b || (s.readV y).getLsbD b)) ∧
    (decode m (BitVec.ofNat 16 (0x8002 + 0x100 * x.val + 0x10 * y.val)) = .andVy x y ∧
      ∃ t, exec (.andVy x y) s = .next t ∧ s.onlyRegisters t ∧ (∀ r, r ≠ x → t.readV r = s.readV r) ∧
        ∀ b, b < 8 → (t.readV x).getLsbD b = ((s.readV x).getLsbD b && (s.readV y).getLsbD b)) ∧
    (decode m (BitVec.ofNat 16 (0x8003 + 0x100 * x.val + 0x10 * y.val)) = .xorVy x y ∧
      ∃ t, exec (.xorVy x y) s = .next t ∧ s.onlyRegisters t ∧ (∀ r, r ≠ x → t.readV r = s.readV r) ∧
        ∀ b, b < 8 → (t.readV x).getLsbD b = ((s.readV x).getLsbD b != (s.readV y).getLsbD b))

/-- R147: the sum modulo 256, and VF = 1 exactly when the unmasked sum is above 255. -/
def Obligations.AddRegistersSetsCarry : Prop :=
  ∀ (m : BnnnMode) (x y : Reg) (s : State), s.cfg.fixedRows →
    let sum := (s.readV x).toNat + (s.readV y).toNat
    decode m (BitVec.ofNat 16 (0x8004 + 0x100 * x.val + 0x10 * y.val)) = .addVy x y ∧
    ∃ t, exec (.addVy x y) s = .next t ∧ s.onlyRegisters t ∧ ∀ r, (t.readV r).toNat =
      resultAndFlag s.cfg.flagOrder x r (s.readV r).toNat (sum % 256) (if 255 < sum then 1 else 0)

/-- R148: `Vx − Vy` modulo 256, and VF = 1 exactly when `Vx > Vy`, strictly. -/
def Obligations.SubtractSetsStrictFlag : Prop :=
  ∀ (m : BnnnMode) (x y : Reg) (s : State), s.cfg.fixedRows →
    let a := (s.readV x).toNat; let b := (s.readV y).toNat
    decode m (BitVec.ofNat 16 (0x8005 + 0x100 * x.val + 0x10 * y.val)) = .subVy x y ∧
    ∃ t, exec (.subVy x y) s = .next t ∧ s.onlyRegisters t ∧ ∀ r, (t.readV r).toNat =
      resultAndFlag s.cfg.flagOrder x r (s.readV r).toNat ((256 + a - b) % 256) (if b < a then 1 else 0)

/-- R150: `Vy − Vx` modulo 256, and VF = 1 exactly when `Vy > Vx`, strictly. -/
def Obligations.SubtractReversedSetsStrictFlag : Prop :=
  ∀ (m : BnnnMode) (x y : Reg) (s : State), s.cfg.fixedRows →
    let a := (s.readV x).toNat; let b := (s.readV y).toNat
    decode m (BitVec.ofNat 16 (0x8007 + 0x100 * x.val + 0x10 * y.val)) = .subnVy x y ∧
    ∃ t, exec (.subnVy x y) s = .next t ∧ s.onlyRegisters t ∧ ∀ r, (t.readV r).toNat =
      resultAndFlag s.cfg.flagOrder x r (s.readV r).toNat ((256 + b - a) % 256) (if a < b then 1 else 0)

/-- Derived (R149, R151; that `y` is ignored is the spec's decision D11): one bit right or left, VF the bit shifted out; the
field `y` never matters. -/
def Obligations.ShiftsMoveOneBit : Prop :=
  ∀ (m : BnnnMode) (x y : Reg) (s : State), s.cfg.fixedRows →
    let a := (s.readV x).toNat
    (decode m (BitVec.ofNat 16 (0x8006 + 0x100 * x.val + 0x10 * y.val)) = .shr x y ∧
      ∃ t, exec (.shr x y) s = .next t ∧ s.onlyRegisters t ∧ ∀ r, (t.readV r).toNat =
        resultAndFlag s.cfg.flagOrder x r (s.readV r).toNat (a / 2) (a % 2)) ∧
    (decode m (BitVec.ofNat 16 (0x800E + 0x100 * x.val + 0x10 * y.val)) = .shl x y ∧
      ∃ t, exec (.shl x y) s = .next t ∧ s.onlyRegisters t ∧ ∀ r, (t.readV r).toNat =
        resultAndFlag s.cfg.flagOrder x r (s.readV r).toNat (2 * a % 256) (a / 128))

/-- R152, with the byte of the draw free (log 5): each execution takes one byte of the `rand` port; `V[x]` is that byte
masked, so no bit outside the mask is ever set. -/
def Obligations.RandomIsMaskedDraw : Prop :=
  ∀ (m : BnnnMode) (x : Reg) (kk : Byte) (s : State),
    decode m (BitVec.ofNat 16 (0xC000 + 0x100 * x.val + kk.toNat)) = .rnd x kk ∧
    ∃ t, exec (.rnd x kk) s = .next t ∧ t = { s with v := t.v, draws := s.draws + 1 } ∧ s.sameBytes t ∧
      (∀ r, r ≠ x → t.readV r = s.readV r) ∧
      ∀ b, b < 8 → (t.readV x).getLsbD b = ((Config.randByte s.draws).getLsbD b && kk.getLsbD b)

/-! ## Address register and memory transfers -/

/-- Derived (R180, R181, R182; no flag and no masking are the spec's decisions D13, D14): `I` set to an immediate, added to
modulo 2^16 with no flag, or set to five times a register. -/
def Obligations.AddressRegisterWrites : Prop :=
  ∀ (m : BnnnMode) (nnn : Imm12) (x : Reg) (s : State),
    (decode m (BitVec.ofNat 16 (0xA000 + nnn.toNat)) = .ldI nnn ∧
      ∃ t, exec (.ldI nnn) s = .next t ∧ t.i.toNat = nnn.toNat ∧ s.onlyI t) ∧
    (decode m (BitVec.ofNat 16 (0xF01E + 0x100 * x.val)) = .addI x ∧
      ∃ t, exec (.addI x) s = .next t ∧ t.i.toNat = (s.i.toNat + (s.readV x).toNat) % 65536 ∧ s.onlyI t) ∧
    (decode m (BitVec.ofNat 16 (0xF029 + 0x100 * x.val)) = .ldF x ∧
      ∃ t, exec (.ldF x) s = .next t ∧ t.i.toNat = 5 * (s.readV x).toNat ∧ s.onlyI t)

/-- Derived (R183): with three backed bytes at `I`, the hundreds, tens and ones of `V[x]` go there, nothing else changes. -/
def Obligations.BcdStoresThreeDigits : Prop :=
  ∀ (m : BnnnMode) (x : Reg) (s : State), s.i.toNat + 2 < s.cfg.memSize →
    let a := (s.readV x).toNat
    decode m (BitVec.ofNat 16 (0xF033 + 0x100 * x.val)) = .ldB x ∧
    ∃ t, exec (.ldB x) s = .next t ∧ (t.mem.read (s.transferAddress 0)).toNat = a / 100 ∧
      (t.mem.read (s.transferAddress 1)).toNat = a / 10 % 10 ∧ (t.mem.read (s.transferAddress 2)).toNat = a % 10 ∧
      s.sameBytesOutside t (s.transferAddress 0) 3 ∧ t = { s with mem := t.mem }

/-- Derived (R184): with `x + 1` backed bytes at `I`, `V[0]..V[x]` go there in order; `I` and every other byte stay. -/
def Obligations.DumpStoresRegisters : Prop :=
  ∀ (m : BnnnMode) (x : Reg) (s : State), s.i.toNat + x.val < s.cfg.memSize →
    decode m (BitVec.ofNat 16 (0xF055 + 0x100 * x.val)) = .dump x ∧
    ∃ t, exec (.dump x) s = .next t ∧ (∀ r : Reg, r ≤ x → t.mem.read (s.transferAddress r.val) = s.readV r) ∧
      s.sameBytesOutside t (s.transferAddress 0) (x.val + 1) ∧ t = { s with mem := t.mem }

/-- Derived (R185): with `x + 1` backed bytes at `I`, `V[0]..V[x]` take them in order; `I`, the other registers and memory
stay. -/
def Obligations.LoadFillsRegisters : Prop :=
  ∀ (m : BnnnMode) (x : Reg) (s : State), s.i.toNat + x.val < s.cfg.memSize →
    decode m (BitVec.ofNat 16 (0xF065 + 0x100 * x.val)) = .load x ∧
    ∃ t, exec (.load x) s = .next t ∧ s.onlyRegisters t ∧
      ∀ r : Reg, t.readV r = if r ≤ x then s.mem.read (s.transferAddress r.val) else s.readV r

/-- Derived (R183, R184, R185, their fatal conditions; R260): a transfer that reaches an unbacked address is FATAL(MEM_RANGE); the
bytes stored, or the registers loaded, before it stay so, and nothing else changes. R261 asks claims about runs not to rest on these
values (log 2); this one only says what the rules of the three instructions say is written. -/
def Obligations.TransfersStopAtUnbackedByte : Prop :=
  ∀ (x : Reg) (s : State),
    (s.cfg.memSize ≤ s.i.toNat + 2 → ∃ t, exec (.ldB x) s = .next t ∧ t = { s with mem := t.mem, run := .fatal .memRange } ∧
      ∀ a, (t.mem.read a).toNat =
        if s.i.toNat ≤ a ∧ a < s.cfg.memSize then (s.readV x).toNat / 10 ^ (2 - (a - s.i.toNat)) % 10
        else (s.mem.read a).toNat) ∧
    (s.cfg.memSize ≤ s.i.toNat + x.val →
      (∃ t, exec (.dump x) s = .next t ∧ t = { s with mem := t.mem, run := .fatal .memRange } ∧
        ∀ a, t.mem.read a =
          if s.i.toNat ≤ a ∧ a < s.cfg.memSize then s.readV (Fin.ofNat 16 (a - s.i.toNat)) else s.mem.read a) ∧
      (∃ t, exec (.load x) s = .next t ∧ t = { s with v := t.v, run := .fatal .memRange } ∧ s.sameBytes t ∧
        ∀ r : Reg, t.readV r =
          if s.i.toNat + r.val < s.cfg.memSize then s.mem.read (s.i.toNat + r.val) else s.readV r))

/-! ## Framebuffer -/

/-- R211: every cell off, everything else as it was. -/
def Obligations.ClearTurnsEveryCellOff : Prop :=
  ∀ (m : BnnnMode) (s : State), decode m 0x00E0 = .cls ∧
    ∃ t, exec .cls s = .next t ∧ (∀ j, j < 2048 → t.cell j = false) ∧ s.sameBytes t ∧ t = { s with fb := t.fb }

/-- Derived (R212, R213): with the sprite's bytes backed, each cell under a sprite bit is that cell XOR the bit, at the origin
modulo 64 and 32 and wrapped at the edges; every other cell stays; VF is 1 exactly when a set bit met a cell that was on. -/
def Obligations.DrawComposesSpriteByXor : Prop :=
  ∀ (m : BnnnMode) (x y : Reg) (n : Nibble) (s : State), s.cfg.fixedRows →
    (∀ r, r < n.toNat → s.i.toNat + r < s.cfg.memSize) →
    let cellAt := fun r c : Nat => ((s.readV y).toNat % 32 + r) % 32 * 64 + ((s.readV x).toNat % 64 + c) % 64
    decode m (BitVec.ofNat 16 (0xD000 + 0x100 * x.val + 0x10 * y.val + n.toNat)) = .drw x y n ∧
    ∃ t, exec (.drw x y n) s = .next t ∧ t = { s with v := t.v, fb := t.fb } ∧ s.sameBytes t ∧
      (∀ r c, r < n.toNat → c < 8 → t.cell (cellAt r c) = (s.cell (cellAt r c) != s.spriteBit r c)) ∧
      (∀ j, j < 2048 → (∀ r c, r < n.toNat → c < 8 → j ≠ cellAt r c) → t.cell j = s.cell j) ∧
      (∀ r : Reg, r ≠ 15 → t.readV r = s.readV r) ∧
      ((t.readV 15 = 1 ∧ ∃ r c, r < n.toNat ∧ c < 8 ∧ s.spriteBit r c = true ∧ s.cell (cellAt r c) = true) ∨
        (t.readV 15 = 0 ∧ ∀ r c, r < n.toNat → c < 8 → s.spriteBit r c = true → s.cell (cellAt r c) = false))

/-- Derived (R212, its fatal condition; R260): a sprite that reaches an unbacked row is FATAL(MEM_RANGE); the rows before it have
been composed and VF holds the flag so far, as R212 says (a claim about a run should not rest on them, R261, log 2). -/
def Obligations.DrawStopsAtUnbackedRow : Prop :=
  ∀ (x y : Reg) (n : Nibble) (s : State), s.cfg.fixedRows → n ≠ 0 → s.cfg.memSize < s.i.toNat + n.toNat →
    let rows := s.cfg.memSize - s.i.toNat
    let cellAt := fun r c : Nat => ((s.readV y).toNat % 32 + r) % 32 * 64 + ((s.readV x).toNat % 64 + c) % 64
    ∃ t, exec (.drw x y n) s = .next t ∧ t = { s with v := t.v, fb := t.fb, run := .fatal .memRange } ∧ s.sameBytes t ∧
      (∀ r c, r < rows → c < 8 → t.cell (cellAt r c) = (s.cell (cellAt r c) != s.spriteBit r c)) ∧
      (∀ j, j < 2048 → (∀ r c, r < rows → c < 8 → j ≠ cellAt r c) → t.cell j = s.cell j) ∧
      (∀ r : Reg, r ≠ 15 → t.readV r = s.readV r) ∧
      ((t.readV 15 = 1 ∧ ∃ r c, r < rows ∧ c < 8 ∧ s.spriteBit r c = true ∧ s.cell (cellAt r c) = true) ∨
        (t.readV 15 = 0 ∧ ∀ r c, r < rows → c < 8 → s.spriteBit r c = true → s.cell (cellAt r c) = false))

/-- Derived (R214, L1-5): drawing the same sprite at the same origin twice restores every cell, and the second draw sets VF to 1
exactly when the first turned a cell on. -/
def Obligations.DrawTwiceRestoresCells : Prop :=
  ∀ (x y : Reg) (n : Nibble) (s : State), s.cfg.fixedRows → (∀ r, r < n.toNat → s.i.toNat + r < s.cfg.memSize) →
    ∃ t, exec (.drw x y n) s = .next t ∧
      (t.originX x = s.originX x → t.originY y = s.originY y →
        ∃ u, exec (.drw x y n) t = .next u ∧ (∀ j, j < 2048 → u.cell j = s.cell j) ∧
          (u.readV 15 = 0 ∨ u.readV 15 = 1) ∧
          (u.readV 15 = 1 ↔ ∃ j, j < 2048 ∧ s.cell j = false ∧ t.cell j = true))

/-- Derived (R215; the two byte values are free, log 10): the 2048 cells in index order, each as one of two byte values, whatever
these are; the `fb` port itself shows them as FB_ON and FB_OFF. -/
def Obligations.FramebufferPortShowsCells : Prop :=
  (∀ s : State, fbOutput s = fbPort Config.fbOn Config.fbOff s) ∧
  ∀ (fbOn fbOff : Byte) (s : State), s.cfg.fixedRows → (fbPort fbOn fbOff s).length = 2048 ∧
    ∀ x y, x < 64 → y < 32 → (fbPort fbOn fbOff s)[y * 64 + x]? =
      some (if (s.fb[y]?.getD 0).getLsbD x then fbOn else fbOff)

/-! ## Keypad, halt, timers, unknown words -/

/-- Derived (R230, R231; the fatal index is the spec's decision D15): the skip on `KEYS[V[x]]`; an index of 16 or more is
FATAL(KEY_INDEX). -/
def Obligations.KeySkipsTestTheKey : Prop :=
  ∀ (m : BnnnMode) (x : Reg) (s : State), s.cfg.fixedRows →
    let k := (s.readV x).toNat
    let past : Word := BitVec.ofNat 16 ((s.pc.toNat + 2) % 65536)
    decode m (BitVec.ofNat 16 (0xE09E + 0x100 * x.val)) = .skp x ∧
    decode m (BitVec.ofNat 16 (0xE0A1 + 0x100 * x.val)) = .sknp x ∧
    (k < 16 → exec (.skp x) s = .next { s with pc := if s.keys.getLsbD k = true then past else s.pc } ∧
      exec (.sknp x) s = .next { s with pc := if s.keys.getLsbD k = false then past else s.pc }) ∧
    (16 ≤ k → exec (.skp x) s = .next { s with run := .fatal .keyIndex } ∧
      exec (.sknp x) s = .next { s with run := .fatal .keyIndex })

/-- Derived (R232, R274, R276): LD Vx, K halts and writes no register. The tick that follows, if it samples a key, writes the
lowest pressed index to `V[x]` and resumes with `PC` as it was; if it samples none the core stays halted. Either way it
executes nothing, discards the budget, and updates the timer. -/
def Obligations.HaltWaitsForLowestKey : Prop :=
  ∀ (m : BnnnMode) (x : Reg) (s : State) (elapsed : Nat) (keys : BitVec 16),
    decode m (BitVec.ofNat 16 (0xF00A + 0x100 * x.val)) = .ldVxK x ∧
    exec (.ldVxK x) s = .next { s with run := .haltedForKey, haltReg := x } ∧
    ∃ t, tick elapsed keys { s with run := .haltedForKey, haltReg := x } = .next t ∧
      t = { s with
        run := t.run, haltReg := x, v := t.v, keys := keys, cycleAcc := 0,
        dt := (timerUpdate elapsed s).dt, timerAcc := (timerUpdate elapsed s).timerAcc } ∧
      (keys = 0 → t.run = .haltedForKey ∧ t.v = s.v) ∧
      (∀ k : Fin 16, keys.getLsbD k.val = true → (∀ j, j < k.val → keys.getLsbD j = false) →
        t.run = .running ∧ ∀ r, (t.readV r).toNat = if r = x then k.val else (s.readV r).toNat)

/-- Derived (R233, R234, R235, R271; that the write of `DT` itself clears `TIMER_ACC` is log 18, DEDUCED): `DT` to a register; a
register (or, with `FX15_MODE = Nibble`, the field `x`) to `DT`, `TIMER_ACC` kept between two values above 0 and 0 when the timer
stood still or stops; a register to `ST`. -/
def Obligations.TimerRegistersMove : Prop :=
  ∀ (m : BnnnMode) (x : Reg) (s : State),
    (decode m (BitVec.ofNat 16 (0xF007 + 0x100 * x.val)) = .ldVxDt x ∧
      ∃ t, exec (.ldVxDt x) s = .next t ∧ s.onlyRegisters t ∧
        ∀ r, t.readV r = if r = x then s.dt else s.readV r) ∧
    (decode m (BitVec.ofNat 16 (0xF015 + 0x100 * x.val)) = .ldDtVx x ∧
      ∃ t, exec (.ldDtVx x) s = .next t ∧ s.sameBytes t ∧ t = { s with dt := t.dt, timerAcc := t.timerAcc } ∧
        (t.dt.toNat = if s.cfg.fx15Mode = .register then (s.readV x).toNat else x.val) ∧
        t.timerAcc = if s.dt.toNat = 0 ∨ t.dt.toNat = 0 then 0 else s.timerAcc) ∧
    (decode m (BitVec.ofNat 16 (0xF018 + 0x100 * x.val)) = .ldStVx x ∧
      ∃ t, exec (.ldStVx x) s = .next t ∧ s.sameBytes t ∧ t = { s with st := s.readV x })

/-- Derived (R236; that the `diag` port shows the word before it runs is the model's choice, log 13, since R283 makes the strobe
optional, and that a step between ticks with no input at hand runs it is log 3; both DESIGN CHOICE): a word that matches no
catalogued pattern decodes to UNKNOWN, changes nothing once `PC` is advanced, and shows at the diagnostic port; running it is a
step that moves `PC` by 2 and nothing else. -/
def Obligations.UnknownWordIsNoOp : Prop :=
  ∀ (w : Word) (s : State), catalogued s.cfg.bnnnMode w = false →
    decode s.cfg.bnnnMode w = .unknown w ∧ exec (.unknown w) s = .next s ∧
    (s.run = .running → s.batch = none → s.inputs = [] → s.wordAtPc = some w →
      step s = .next { s with pc := s.pc + 2 } ∧ diagPort s = some w)

/-! ## Timer, scheduler, ticks -/

/-- Derived (R270, R271; the unit is the spec's decision D37): the delay timer falls by one for each full period accumulated,
never below 0; the accumulator keeps the remainder, and is 0 whenever `DT` is 0. -/
def Obligations.DelayTimerDecays : Prop :=
  ∀ (elapsed : Nat) (s : State), 0 < s.cfg.tTimer →
    let total := s.timerAcc + elapsed
    ∃ t, timerUpdate elapsed s = t ∧ t = { s with dt := t.dt, timerAcc := t.timerAcc } ∧
      t.dt.toNat = s.dt.toNat - total / s.cfg.tTimer ∧
      t.timerAcc = if t.dt = 0 then 0 else total % s.cfg.tTimer

/-- Derived (R273, R279): when no halt or fatal condition intervenes, one batch executes exactly `⌈A / T_INSTR⌉ − 1`
instructions, `A` the budget with the tick's elapsed time added, and keeps the unspent time. -/
def Obligations.BatchSpendsItsBudget : Prop :=
  ∀ (elapsed : Nat) (s u : State), 0 < s.cfg.tInstr → s.run = .running →
    let budget := s.cycleAcc + elapsed
    let count := (budget + s.cfg.tInstr - 1) / s.cfg.tInstr - 1
    (∀ k v, k ≤ count → instrSteps k s = .next v → v.run = .running) →
    instrSteps count s = .next u →
    runBatch elapsed s = .next { u with cycleAcc := budget - count * s.cfg.tInstr }

/-- Derived (R274, R275): however a batch ends, a halted core has no budget; and a batch whose `k + 1`-th instruction halts the core,
the `k` before it leaving it RUNNING and the budget reaching that far, runs nothing after it: the state is the one the halting
instruction left, but for the budget. -/
def Obligations.HaltEndsBatch : Prop :=
  (∀ (elapsed : Nat) (s t : State), runBatch elapsed s = .next t → t.run = .haltedForKey → t.cycleAcc = 0) ∧
  (∀ (k elapsed : Nat) (s u : State), (0 < s.cfg.tInstr ∨ k = 0) →
    (∀ j v, j ≤ k → instrSteps j s = .next v → v.run = .running) →
    (k + 1) * s.cfg.tInstr < s.cycleAcc + elapsed →
    instrSteps (k + 1) s = .next u → u.run = .haltedForKey →
    runBatch elapsed s = .next { u with cycleAcc := 0 })

/-- Derived (R261, R302; the fault is the model's, log 1): in FATAL a tick changes nothing, as a whole and as a step, which only
takes it off the inputs; a reset, R302's only way out, resets; with no input a step answers a fault. -/
def Obligations.FatalStateIsFrozen : Prop :=
  ∀ (k : FatalKind) (s : State), s.run = .fatal k →
    (∀ elapsed keys, tick elapsed keys s = .next s) ∧
    (∀ elapsed keys rest, s.inputs = .tick elapsed keys :: rest → step s = .next { s with inputs := rest }) ∧
    (∀ image rest, s.inputs = .reset image :: rest →
      step s = .next { State.resetWith s.cfg image with draws := s.draws, inputs := rest }) ∧
    (s.inputs = [] → step s = .fault (.fatal k))

/-- Derived (R273 to R277; that a tick is split into steps is the model's choice, log 3, DESIGN CHOICE): the machine's steps perform
the spec's whole tick. From a state between ticks with a tick at hand, some number of steps reaches exactly the state `Tick`
gives. -/
def Obligations.StepsPerformWholeTick : Prop :=
  ∀ (elapsed : Nat) (keys : BitVec 16) (rest : List Input) (s : State), 0 < s.cfg.tInstr →
    s.batch = none → s.inputs = .tick elapsed keys :: rest →
    ∃ n t, 0 < n ∧ tick elapsed keys { s with inputs := rest } = .next t ∧ steps n s = .next t

/-- Derived (R285, the model's own reading of it, log 3): every step that is not a reset is a sequence of the moves of R285, the
pacing left out; a step is a reset only between ticks with a reset at hand (log 12). -/
def Obligations.StepsAreMovesOfTheRelation : Prop :=
  ∀ s t : State, s.isFatal = false → (s.batch = none → ∀ image rest, s.inputs ≠ .reset image :: rest) → step s = .next t →
    Relation.ReflTransGen Move s.unpaced t.unpaced

/-- Derived (R35, R314): a step changes `KEYS` only at the start of a tick, to the sample of that tick, or by a reset. -/
def Obligations.KeysChangeOnlyAtTickStart : Prop :=
  ∀ s t : State, step s = .next t → t.keys ≠ s.keys →
    (∃ elapsed rest, s.batch = none ∧ s.inputs = .tick elapsed t.keys :: rest) ∨ (∃ image rest, s.inputs = .reset image :: rest)

/-- Derived (R272, R274, R276, R285 (d), R315; that with no input at hand the core looks at the `KEYS` it holds is log 11, DEDUCED):
between ticks, a step that is no reset leaves HALTED_FOR_KEY for RUNNING exactly when a key is pressed in the keypad vector it
sees; with none the core stays halted. The tick in which LD Vx, K halted the core ends with the core halted, whatever the keys:
the budget is discarded, the timer updated, and nothing else changes. -/
def Obligations.HaltedLeavesOnlyOnKey : Prop :=
  ∀ s t : State, s.run = .haltedForKey → step s = .next t →
    (s.batch = none → (∀ image rest, s.inputs ≠ .reset image :: rest) →
      t.pc = s.pc ∧ (t.keys = 0 → t.run = .haltedForKey ∧ t.v = s.v) ∧
      (t.keys ≠ 0 → t.run = .running ∧ ∃ k : Fin 16, lowestPressed t.keys = some k ∧ (t.readV s.haltReg).toNat = k.val)) ∧
    (∀ elapsed, s.batch = some elapsed →
      t = { s with
        cycleAcc := 0, batch := none,
        dt := (timerUpdate elapsed s).dt, timerAcc := (timerUpdate elapsed s).timerAcc })

/-- Derived (R286): at the end of a run, a jump to itself, a step between ticks and with no input at hand changes nothing: such a
step spends no budget (log 3, DESIGN CHOICE). The core does not stop: ticks go on changing the budget, `DT` and `KEYS`. -/
def Obligations.SelfJumpIsFixedPoint : Prop :=
  ∀ s : State, s.endsWell = true → s.batch = none → s.inputs = [] → step s = .next s

/-! ## Memory, and the invariant -/

/-- Derived (R11, R51, R63): a byte written in range is the byte read at that address, every other address reads as before,
and an access at or above `MEM_SIZE` is MEM_RANGE with nothing written. -/
def Obligations.MemoryReadsLastWrite : Prop :=
  ∀ (a b : Nat) (u : Byte) (s : State),
    (a < s.cfg.memSize → ∃ t, memWrite a u s = .ok () t ∧ t = { s with mem := t.mem } ∧
      (b < s.cfg.memSize → memRead b t = .ok (if b = a then u else s.mem.read b) t)) ∧
    (s.cfg.memSize ≤ a → memWrite a u s = .raised .memRange s ∧ memRead a s = .raised .memRange s)

/-- Derived (the model's canonical form of `MEM`, log 7): two memories that read alike at every address are the same data. -/
def Obligations.CanonicalMemoriesAreEqual : Prop :=
  ∀ m n : Memory, m.wf → n.wf → (∀ a, m.read a = n.read a) → m = n

/-- Derived (R28, R32, R50, R261, R271): every step keeps the invariant: the parameters, the canonical memory inside the backed
bytes, a legal `SP`, no tick in progress in FATAL, `TIMER_ACC` at 0 while `DT` is 0. -/
def Obligations.EveryStepKeepsInvariant : Prop :=
  ∀ s t : State, s.inv → step s = .next t → t.inv

/-! ## The delay timer across instructions -/

/-- Derived (R234, R271, D24; that the write of `DT` itself clears `TIMER_ACC` is log 18, DEDUCED): an LD DT, Vx that stops the timer,
or that writes `DT` while it is 0, starts a fresh count: whatever instructions follow before the next timer update, setting `DT`
again among them, they complete and `TIMER_ACC` is 0. -/
def Obligations.StoppedTimerStartsAfresh : Prop :=
  ∀ (x : Reg) (rest : List Instr) (s : State), s.timerOperand x = 0 ∨ s.dt = 0 →
    ∃ u, execAll (.ldDtVx x :: rest) s = .next u ∧ u.timerAcc = 0
end

