-- ==== Sys2Proof/Laws/Config.lean ====
section
/-! SUPPORT. What the fixed rows of R7 come to, row by row, and that the types of State, of the words and of the immediates have the
sizes those rows give. -/

namespace Sys2Proof.Config

theorem documented_fixedRows : documented.fixedRows := by decide

theorem documented_wf : documented.wf := by decide

variable {c : Config}

/-! ### The rows -/

theorem flagReg_of_fixedRows (h : c.fixedRows) : c.flagReg = 15 := h.1.2.2.1
theorem addrSpace_of_fixedRows (h : c.fixedRows) : c.addrSpace = 4096 := h.2.1.1
theorem programStart_of_fixedRows (h : c.fixedRows) : c.programStart = 0x200 := h.2.1.2.1
theorem fontBase_of_fixedRows (h : c.fixedRows) : c.fontBase = 0 := h.2.1.2.2.2.1
theorem font_length_of_fixedRows (h : c.fixedRows) : c.font.length = 80 := h.2.1.2.2.2.2.2.2
theorem stackDepth_of_fixedRows (h : c.fixedRows) : c.stackDepth = 16 := h.2.2.1
theorem stackTop_of_fixedRows (h : c.fixedRows) : c.stackTop = 0x200 := h.2.2.2.1
theorem fbW_of_fixedRows (h : c.fixedRows) : c.fbW = 64 := h.2.2.2.2.1
theorem fbH_of_fixedRows (h : c.fixedRows) : c.fbH = 32 := h.2.2.2.2.2.1
theorem numKeys_of_fixedRows (h : c.fixedRows) : c.numKeys = 16 := h.2.2.2.2.2.2

/-- `STACK_LOW` (R7, D4). -/
theorem stackLow_of_fixedRows (h : c.fixedRows) : c.stackLow = 0x1E0 := by
  simp only [stackLow, stackTop_of_fixedRows h, stackDepth_of_fixedRows h]

/-- The reserved region ends where the program region starts (R7). -/
theorem reservedEnd_of_fixedRows (h : c.fixedRows) : c.reservedEnd + 1 = c.programStart := by
  rw [h.2.1.2.2.1, programStart_of_fixedRows h]

/-- The font is its glyphs, one after another (R33). -/
theorem font_length_glyphs (h : c.fixedRows) : c.font.length = c.fontGlyphs * c.fontGlyphBytes := by
  rw [font_length_of_fixedRows h, h.2.1.2.2.2.2.1, h.2.1.2.2.2.2.2.1]

/-- The address R182 computes for glyph `d` is `FONT_BASE + FONT_GLYPH_BYTES·d`. -/
theorem glyph_address (h : c.fixedRows) (d : Nat) : c.fontBase + c.fontGlyphBytes * d = d * 5 := by
  rw [fontBase_of_fixedRows h, h.2.1.2.2.2.2.2.1]; omega

/-! ### The types -/

/-- The register file is `NUM_V` registers of `V_WIDTH` bits, and a register index names one of them (R20). -/
theorem registerFile_type (h : c.fixedRows) : Vector Byte 16 = Vector (BitVec c.vWidth) c.numV ∧ Reg = Fin c.numV := by
  rw [h.1.1, h.1.2.1]; exact ⟨rfl, rfl⟩

/-- `I`, `PC` and `SP` have their widths (R25, R27, R28). -/
theorem word_type (h : c.fixedRows) : Word = BitVec c.iWidth ∧ Word = BitVec c.pcWidth ∧ Word = BitVec c.spWidth := by
  rw [h.1.2.2.2.1, h.1.2.2.2.2.1, h.1.2.2.2.2.2.1]; exact ⟨rfl, rfl, rfl⟩

/-- `DT` and `ST` have their widths (R29, R30). -/
theorem timer_type (h : c.fixedRows) : Byte = BitVec c.dtWidth ∧ Byte = BitVec c.stWidth := by
  rw [h.1.2.2.2.2.2.2.1, h.1.2.2.2.2.2.2.2]; exact ⟨rfl, rfl⟩

/-- The framebuffer is `FB_H` rows of `FB_W` cells (R34), the keypad `NUM_KEYS` keys (R35). -/
theorem ports_type (h : c.fixedRows) :
    Vector (BitVec 64) 32 = Vector (BitVec c.fbW) c.fbH ∧ BitVec 16 = BitVec c.numKeys := by
  rw [fbW_of_fixedRows h, fbH_of_fixedRows h, numKeys_of_fixedRows h]; exact ⟨rfl, rfl⟩

/-- An address immediate reaches exactly the address space (R7, C2). -/
theorem address_space (h : c.fixedRows) : 2 ^ 12 = c.addrSpace := (addrSpace_of_fixedRows h).symm

end Sys2Proof.Config
end

