-- ==== Sys2Proof/Laws/Decode.lean ====
section
/-! SUPPORT. The fields of a packed word are the operands that were packed, and a word is the packing of its fields (R81, R82). -/

namespace Sys2Proof

@[simp] theorem regOfNibble_nibbleOfReg (r : Reg) : regOfNibble (nibbleOfReg r) = r := by
  revert r; decide

@[simp] theorem nibbleOfReg_regOfNibble (b : Nibble) : nibbleOfReg (regOfNibble b) = b := by
  apply BitVec.eq_of_toNat_eq
  have := b.isLt
  simp [nibbleOfReg, regOfNibble]

@[simp] theorem nibbleOfReg_toNat (r : Reg) : (nibbleOfReg r).toNat = r.val := by
  have := r.isLt
  simp only [nibbleOfReg, BitVec.toNat_ofNat]; omega

theorem packNnn_toNat (op : Nibble) (nnn : Imm12) : (packNnn op nnn).toNat = 0x1000 * op.toNat + nnn.toNat := by
  have h : (packNnn op nnn).toNat = op.toNat <<< 12 ||| nnn.toNat := BitVec.toNat_append op nnn
  rw [h, Nat.shiftLeft_eq, Nat.mul_comm, ← Nat.two_pow_add_eq_or_of_lt nnn.isLt]

theorem packXkk_toNat (op : Nibble) (x : Reg) (kk : Byte) :
    (packXkk op x kk).toNat = 0x1000 * op.toNat + 0x100 * x.val + kk.toNat := by
  have h : (packXkk op x kk).toNat = (op.toNat <<< 4 ||| (nibbleOfReg x).toNat) <<< 8 ||| kk.toNat := by
    unfold packXkk; rw [BitVec.toNat_append, BitVec.toNat_append]
  rw [h, Nat.shiftLeft_eq, Nat.shiftLeft_eq, Nat.mul_comm _ (2 ^ 8), ← Nat.two_pow_add_eq_or_of_lt kk.isLt,
    Nat.mul_comm _ (2 ^ 4), ← Nat.two_pow_add_eq_or_of_lt (nibbleOfReg x).isLt, nibbleOfReg_toNat]
  omega

theorem packXyn_toNat (op : Nibble) (x y : Reg) (n : Nibble) :
    (packXyn op x y n).toNat = 0x1000 * op.toNat + 0x100 * x.val + 0x10 * y.val + n.toNat := by
  have h : (packXyn op x y n).toNat =
      (op.toNat <<< 4 ||| (nibbleOfReg x).toNat) <<< 8 ||| ((nibbleOfReg y).toNat <<< 4 ||| n.toNat) := by
    unfold packXyn; rw [BitVec.toNat_append, BitVec.toNat_append, BitVec.toNat_append]
  have hlow : (nibbleOfReg y).toNat <<< 4 ||| n.toNat = 16 * y.val + n.toNat := by
    rw [Nat.shiftLeft_eq, Nat.mul_comm, ← Nat.two_pow_add_eq_or_of_lt n.isLt, nibbleOfReg_toNat]
  have hy := y.isLt
  have hn := n.isLt
  rw [h, hlow, Nat.shiftLeft_eq, Nat.shiftLeft_eq, Nat.mul_comm _ (2 ^ 8), ← Nat.two_pow_add_eq_or_of_lt (by omega),
    Nat.mul_comm _ (2 ^ 4), ← Nat.two_pow_add_eq_or_of_lt (nibbleOfReg x).isLt, nibbleOfReg_toNat]
  omega

/-! ### The fields of a word as numbers -/

theorem nibble3_toNat (w : Word) : (nibble3 w).toNat = w.toNat / 0x1000 := by
  have := w.isLt
  simp only [nibble3, BitVec.extractLsb'_toNat, Nat.shiftRight_eq_div_pow]; omega

theorem nibble2_toNat (w : Word) : (nibble2 w).toNat = w.toNat / 0x100 % 0x10 := by
  simp only [nibble2, BitVec.extractLsb'_toNat, Nat.shiftRight_eq_div_pow]

theorem nibble1_toNat (w : Word) : (nibble1 w).toNat = w.toNat / 0x10 % 0x10 := by
  simp only [nibble1, BitVec.extractLsb'_toNat, Nat.shiftRight_eq_div_pow]

theorem nibble0_toNat (w : Word) : (nibble0 w).toNat = w.toNat % 0x10 := by
  simp [nibble0, BitVec.extractLsb'_toNat]

theorem trailing_toNat (w : Word) : (lowByte w).toNat = w.toNat % 0x100 := by
  simp [lowByte, BitVec.extractLsb'_toNat]

theorem addressField_toNat (w : Word) : (addressField w).toNat = w.toNat % 0x1000 := by
  simp [addressField, BitVec.extractLsb'_toNat]

/-! ### The fields of a packed word -/

@[simp] theorem nibble3_packNnn (op : Nibble) (nnn : Imm12) : nibble3 (packNnn op nnn) = op := by
  apply BitVec.eq_of_toNat_eq
  have := op.isLt; have := nnn.isLt
  rw [nibble3_toNat, packNnn_toNat]; omega

@[simp] theorem addressField_packNnn (op : Nibble) (nnn : Imm12) : addressField (packNnn op nnn) = nnn := by
  apply BitVec.eq_of_toNat_eq
  have := nnn.isLt
  rw [addressField_toNat, packNnn_toNat]; omega

@[simp] theorem nibble3_packXkk (op : Nibble) (x : Reg) (kk : Byte) : nibble3 (packXkk op x kk) = op := by
  apply BitVec.eq_of_toNat_eq
  have := op.isLt; have := x.isLt; have := kk.isLt
  rw [nibble3_toNat, packXkk_toNat]; omega

@[simp] theorem nibble2_packXkk (op : Nibble) (x : Reg) (kk : Byte) : nibble2 (packXkk op x kk) = nibbleOfReg x := by
  apply BitVec.eq_of_toNat_eq
  have := x.isLt; have := kk.isLt
  rw [nibble2_toNat, packXkk_toNat, nibbleOfReg_toNat]; omega

@[simp] theorem lowByte_packXkk (op : Nibble) (x : Reg) (kk : Byte) : lowByte (packXkk op x kk) = kk := by
  apply BitVec.eq_of_toNat_eq
  have := kk.isLt
  rw [trailing_toNat, packXkk_toNat]; omega

@[simp] theorem nibble3_packXyn (op : Nibble) (x y : Reg) (n : Nibble) : nibble3 (packXyn op x y n) = op := by
  apply BitVec.eq_of_toNat_eq
  have := op.isLt; have := x.isLt; have := y.isLt; have := n.isLt
  rw [nibble3_toNat, packXyn_toNat]; omega

@[simp] theorem nibble2_packXyn (op : Nibble) (x y : Reg) (n : Nibble) : nibble2 (packXyn op x y n) = nibbleOfReg x := by
  apply BitVec.eq_of_toNat_eq
  have := x.isLt; have := y.isLt; have := n.isLt
  rw [nibble2_toNat, packXyn_toNat, nibbleOfReg_toNat]; omega

@[simp] theorem nibble1_packXyn (op : Nibble) (x y : Reg) (n : Nibble) : nibble1 (packXyn op x y n) = nibbleOfReg y := by
  apply BitVec.eq_of_toNat_eq
  have := y.isLt; have := n.isLt
  rw [nibble1_toNat, packXyn_toNat, nibbleOfReg_toNat]; omega

@[simp] theorem nibble0_packXyn (op : Nibble) (x y : Reg) (n : Nibble) : nibble0 (packXyn op x y n) = n := by
  apply BitVec.eq_of_toNat_eq
  have := n.isLt
  rw [nibble0_toNat, packXyn_toNat]; omega

/-! ### A word is the packing of its fields -/

theorem packNnn_fields (w : Word) : packNnn (nibble3 w) (addressField w) = w := by
  apply BitVec.eq_of_toNat_eq
  rw [packNnn_toNat, nibble3_toNat, addressField_toNat]; omega

theorem packXkk_fields (w : Word) : packXkk (nibble3 w) (regOfNibble (nibble2 w)) (lowByte w) = w := by
  apply BitVec.eq_of_toNat_eq
  have h : (regOfNibble (nibble2 w)).val = w.toNat / 0x100 % 0x10 := nibble2_toNat w
  rw [packXkk_toNat, nibble3_toNat, trailing_toNat, h]; omega

theorem packXyn_fields (w : Word) :
    packXyn (nibble3 w) (regOfNibble (nibble2 w)) (regOfNibble (nibble1 w)) (nibble0 w) = w := by
  apply BitVec.eq_of_toNat_eq
  have h2 : (regOfNibble (nibble2 w)).val = w.toNat / 0x100 % 0x10 := nibble2_toNat w
  have h1 : (regOfNibble (nibble1 w)).val = w.toNat / 0x10 % 0x10 := nibble1_toNat w
  rw [packXyn_toNat, nibble3_toNat, nibble0_toNat, h2, h1]; omega

end Sys2Proof
end

