-- ==== Sys2Proof/Laws/Memory.lean ====
section
/-! SUPPORT. The laws of the memory list: read after write, the canonical form, and the bytes an image leaves. -/

namespace Sys2Proof.Machine

@[simp] theorem Memory.read_nil (a : Nat) : Memory.read [] a = Memory.background a := rfl

theorem Memory.read_cons (b : Nat) (t : Byte) (m : Memory) (a : Nat) :
    Memory.read ((b, t) :: m) a = if a = b then t else Memory.read m a := rfl

/-- Taking an address's entries out leaves it reading as unlisted, and every other address as before. -/
theorem Memory.read_filter (m : Memory) (a b : Nat) :
    Memory.read (m.filter fun c => c.1 != a) b = if b = a then Memory.background b else Memory.read m b := by
  induction m with
  | nil => simp
  | cons c m ih =>
    obtain ⟨k, t⟩ := c
    by_cases hk : k = a
    · subst hk
      rw [Memory.read_cons, List.filter_cons_of_neg (by simp), ih]
      by_cases hb : b = k <;> simp [hb]
    · have hf : List.filter (fun c : Host.Cell => c.1 != a) ((k, t) :: m)
          = (k, t) :: List.filter (fun c => c.1 != a) m := by simp [hk]
      rw [hf, Memory.read_cons, Memory.read_cons, ih]
      by_cases hb : b = k
      · subst hb; simp [hk]
      · simp [hb]

/-- A cell inserted where its address is not listed is read there, and nothing else changes. -/
theorem Memory.read_insertCell (m : Memory) (a b : Nat) (u : Byte) (h : ∀ c ∈ m, c.1 ≠ a) :
    Memory.read (Memory.insertCell m a u) b = if b = a then u else Memory.read m b := by
  induction m with
  | nil => simp [Memory.insertCell, Memory.read_cons]
  | cons c m ih =>
    obtain ⟨k, t⟩ := c
    have hk : k ≠ a := h (k, t) (by simp)
    have ih := ih (fun c hc => h c (by simp [hc]))
    unfold Memory.insertCell
    split
    · rw [Memory.read_cons]
    · rw [Memory.read_cons, Memory.read_cons, ih]
      by_cases hb : b = k
      · subst hb; simp [hk]
      · simp [hb]

theorem Memory.filter_ne (m : Memory) (a : Nat) : ∀ c ∈ m.filter (fun c => c.1 != a), c.1 ≠ a := by
  intro c hc; simpa using (List.mem_filter.1 hc).2

/-- Read after write: the written byte at its address, every other address as before. No canonical form is needed. -/
@[simp] theorem Memory.read_write (m : Memory) (a b : Nat) (u : Byte) :
    Memory.read (Memory.write m a u) b = if b = a then u else Memory.read m b := by
  unfold Memory.write
  split
  · next h => rw [Memory.read_filter]; split <;> simp_all
  · rw [Memory.read_insertCell _ _ _ _ (Memory.filter_ne m a), Memory.read_filter]
    split <;> rfl

theorem Memory.mem_insertCell (m : Memory) (a : Nat) (u : Byte) (c : Host.Cell) :
    c ∈ Memory.insertCell m a u ↔ c = (a, u) ∨ c ∈ m := by
  induction m with
  | nil => simp [Memory.insertCell]
  | cons d m ih =>
    obtain ⟨k, t⟩ := d
    unfold Memory.insertCell
    split
    · simp
    · simp only [List.mem_cons, ih]; tauto

/-- A listed cell of a written memory is the new one or an old one of another address. -/
theorem Memory.mem_write {m : Memory} {a : Nat} {u : Byte} {c : Host.Cell} (h : c ∈ Memory.write m a u) :
    (c = (a, u) ∧ u ≠ Memory.background a) ∨ (c ∈ m ∧ c.1 ≠ a) := by
  unfold Memory.write at h
  split at h
  · exact .inr ⟨(List.mem_filter.1 h).1, Memory.filter_ne m a c h⟩
  · next hu =>
    rcases (Memory.mem_insertCell _ _ _ _).1 h with h | h
    · exact .inl ⟨h, hu⟩
    · exact .inr ⟨(List.mem_filter.1 h).1, Memory.filter_ne m a c h⟩

theorem Memory.pairwise_insertCell (m : Memory) (a : Nat) (u : Byte)
    (hm : m.Pairwise (fun c d => c.1 < d.1)) (h : ∀ c ∈ m, c.1 ≠ a) :
    (Memory.insertCell m a u).Pairwise (fun c d => c.1 < d.1) := by
  induction m with
  | nil => simp [Memory.insertCell]
  | cons d m ih =>
    obtain ⟨k, t⟩ := d
    have hk : k ≠ a := h (k, t) (by simp)
    rw [List.pairwise_cons] at hm
    unfold Memory.insertCell
    split
    · next hlt =>
      refine List.pairwise_cons.2 ⟨?_, List.pairwise_cons.2 hm⟩
      intro c hc
      rcases List.mem_cons.1 hc with rfl | hc
      · exact hlt
      · exact lt_trans hlt (hm.1 c hc)
    · next hge =>
      refine List.pairwise_cons.2 ⟨?_, ih hm.2 (fun c hc => h c (by simp [hc]))⟩
      intro c hc
      rcases (Memory.mem_insertCell _ _ _ _).1 hc with rfl | hc
      · show k < a; omega
      · exact hm.1 c hc

/-- A write keeps the canonical form. -/
theorem Memory.wf_write (m : Memory) (a : Nat) (u : Byte) (h : Memory.wf m) : Memory.wf (Memory.write m a u) := by
  constructor
  · unfold Memory.write
    have hp : (m.filter fun c => c.1 != a).Pairwise (fun c d => c.1 < d.1) := h.1.filter _
    split
    · exact hp
    · exact Memory.pairwise_insertCell _ _ _ hp (Memory.filter_ne m a)
  · intro c hc
    rcases Memory.mem_write hc with ⟨rfl, hu⟩ | ⟨hc, -⟩
    · exact hu
    · exact h.2 c hc

/-- A write keeps every listed address below a bound. -/
theorem Memory.bounded_write {m : Memory} {a n : Nat} {u : Byte} (ha : a < n) (h : ∀ c ∈ m, c.1 < n) :
    ∀ c ∈ Memory.write m a u, c.1 < n := by
  intro c hc
  rcases Memory.mem_write hc with ⟨rfl, -⟩ | ⟨hc, -⟩
  · exact ha
  · exact h c hc

theorem Memory.wf_nil : Memory.wf [] := ⟨List.Pairwise.nil, by simp⟩

/-- What an image leaves in memory: its bytes from its start on, the rest as before (R304). -/
theorem Memory.read_place (image : List Byte) (a b : Nat) (m : Memory) :
    Memory.read (Memory.place a image m) b = if a ≤ b ∧ b < a + image.length then image.getD (b - a) 0 else m.read b := by
  induction image generalizing a m with
  | nil => simp [Memory.place]
  | cons u rest ih =>
    rw [Memory.place, ih, Memory.read_write]
    by_cases h : b = a
    · subst h; simp
    · by_cases h2 : a + 1 ≤ b ∧ b < a + 1 + rest.length
      · have : b - a = (b - (a + 1)) + 1 := by omega
        rw [if_pos h2, if_pos (by simp only [List.length_cons]; omega), this, List.getD_cons_succ]
      · rw [if_neg h2, if_neg h, if_neg (by simp only [List.length_cons]; omega)]

theorem Memory.wf_place (image : List Byte) (a : Nat) (m : Memory) (h : Memory.wf m) :
    Memory.wf (Memory.place a image m) := by
  induction image generalizing a m with
  | nil => exact h
  | cons u rest ih => exact ih _ _ (Memory.wf_write m a u h)

theorem Memory.bounded_place {n : Nat} (image : List Byte) (a : Nat) (m : Memory) (ha : a + image.length ≤ n)
    (h : ∀ c ∈ m, c.1 < n) : ∀ c ∈ Memory.place a image m, c.1 < n := by
  induction image generalizing a m with
  | nil => exact h
  | cons u rest ih =>
    simp only [List.length_cons] at ha
    exact ih _ _ (by omega) (Memory.bounded_write (by omega) h)

/-! ### The state before the image (R300) -/

/-- Under the values of R7 the font copy lists nothing. -/
theorem State.initial_documented : State.initial Config.documented = State.reset := by decide +kernel

/-- The font stands in memory from `FONT_BASE` on; every other byte is as in the list that is empty. -/
theorem State.read_initial (c : Config) (a : Nat) : (State.initial c).mem.read a =
    if c.fontBase ≤ a ∧ a < c.fontBase + c.font.length then c.font.getD (a - c.fontBase) 0 else Memory.background a :=
  Memory.read_place c.font c.fontBase a []

theorem State.wf_initial (c : Config) : (State.initial c).mem.wf := Memory.wf_place _ _ _ Memory.wf_nil

@[simp] theorem State.initial_cfg (c : Config) : (State.initial c).cfg = c := rfl

@[simp] theorem State.blank_cfg (c : Config) : (State.blank c).cfg = c := rfl

@[simp] theorem State.initial_pc (c : Config) : (State.initial c).pc = BitVec.ofNat 16 c.programStart := rfl
@[simp] theorem State.initial_sp (c : Config) : (State.initial c).sp = BitVec.ofNat 16 c.stackTop := rfl
@[simp] theorem State.initial_run (c : Config) : (State.initial c).run = .running := rfl

@[simp] theorem State.readV_initial (c : Config) (r : Reg) : (State.initial c).readV r = 0 := by
  simp [State.readV, State.initial, State.blank]

@[simp] theorem State.cell_initial (c : Config) (j : Nat) : (State.initial c).cell j = false := by
  simp only [State.cell, State.initial, State.blank, Vector.getElem?_replicate]
  split <;> simp

/-- A reset with an image that fits: the state before the image, with the image from `PROGRAM_START` on (R300, R304). -/
theorem State.resetWith_fits {c : Config} {image : List Byte} (h : image.length ≤ c.memSize - c.programStart) :
    State.resetWith c image =
      { State.initial c with mem := Memory.place c.programStart image (State.initial c).mem } :=
  if_neg (Nat.not_lt.2 h)

end Sys2Proof.Machine
end

