-- ==== Sys2Proof/Laws/State.lean ====
section
/-! SUPPORT. One lemma per field per update of State, true by rfl (or by the two cases of the update), so that no later proof unfolds
a record update; then reads of registers and cells through the updates. -/

namespace Sys2Proof.Machine

/-! ### `writeV` -/

@[simp] theorem State.writeV_i (s : State) (r : Reg) (u : Byte) : (s.writeV r u).i = s.i := rfl
@[simp] theorem State.writeV_pc (s : State) (r : Reg) (u : Byte) : (s.writeV r u).pc = s.pc := rfl
@[simp] theorem State.writeV_sp (s : State) (r : Reg) (u : Byte) : (s.writeV r u).sp = s.sp := rfl
@[simp] theorem State.writeV_dt (s : State) (r : Reg) (u : Byte) : (s.writeV r u).dt = s.dt := rfl
@[simp] theorem State.writeV_st (s : State) (r : Reg) (u : Byte) : (s.writeV r u).st = s.st := rfl
@[simp] theorem State.writeV_run (s : State) (r : Reg) (u : Byte) : (s.writeV r u).run = s.run := rfl
@[simp] theorem State.writeV_haltReg (s : State) (r : Reg) (u : Byte) : (s.writeV r u).haltReg = s.haltReg := rfl
@[simp] theorem State.writeV_mem (s : State) (r : Reg) (u : Byte) : (s.writeV r u).mem = s.mem := rfl
@[simp] theorem State.writeV_fb (s : State) (r : Reg) (u : Byte) : (s.writeV r u).fb = s.fb := rfl
@[simp] theorem State.writeV_keys (s : State) (r : Reg) (u : Byte) : (s.writeV r u).keys = s.keys := rfl
@[simp] theorem State.writeV_cycleAcc (s : State) (r : Reg) (u : Byte) : (s.writeV r u).cycleAcc = s.cycleAcc := rfl
@[simp] theorem State.writeV_timerAcc (s : State) (r : Reg) (u : Byte) : (s.writeV r u).timerAcc = s.timerAcc := rfl
@[simp] theorem State.writeV_cfg (s : State) (r : Reg) (u : Byte) : (s.writeV r u).cfg = s.cfg := rfl
@[simp] theorem State.writeV_draws (s : State) (r : Reg) (u : Byte) : (s.writeV r u).draws = s.draws := rfl
@[simp] theorem State.writeV_batch (s : State) (r : Reg) (u : Byte) : (s.writeV r u).batch = s.batch := rfl
@[simp] theorem State.writeV_inputs (s : State) (r : Reg) (u : Byte) : (s.writeV r u).inputs = s.inputs := rfl

/-! ### `flipCell` -/

@[simp] theorem State.flipCell_v (s : State) (j : Nat) : (s.flipCell j).v = s.v := rfl
@[simp] theorem State.flipCell_i (s : State) (j : Nat) : (s.flipCell j).i = s.i := rfl
@[simp] theorem State.flipCell_pc (s : State) (j : Nat) : (s.flipCell j).pc = s.pc := rfl
@[simp] theorem State.flipCell_sp (s : State) (j : Nat) : (s.flipCell j).sp = s.sp := rfl
@[simp] theorem State.flipCell_dt (s : State) (j : Nat) : (s.flipCell j).dt = s.dt := rfl
@[simp] theorem State.flipCell_st (s : State) (j : Nat) : (s.flipCell j).st = s.st := rfl
@[simp] theorem State.flipCell_run (s : State) (j : Nat) : (s.flipCell j).run = s.run := rfl
@[simp] theorem State.flipCell_haltReg (s : State) (j : Nat) : (s.flipCell j).haltReg = s.haltReg := rfl
@[simp] theorem State.flipCell_mem (s : State) (j : Nat) : (s.flipCell j).mem = s.mem := rfl
@[simp] theorem State.flipCell_keys (s : State) (j : Nat) : (s.flipCell j).keys = s.keys := rfl
@[simp] theorem State.flipCell_cycleAcc (s : State) (j : Nat) : (s.flipCell j).cycleAcc = s.cycleAcc := rfl
@[simp] theorem State.flipCell_timerAcc (s : State) (j : Nat) : (s.flipCell j).timerAcc = s.timerAcc := rfl
@[simp] theorem State.flipCell_cfg (s : State) (j : Nat) : (s.flipCell j).cfg = s.cfg := rfl
@[simp] theorem State.flipCell_draws (s : State) (j : Nat) : (s.flipCell j).draws = s.draws := rfl
@[simp] theorem State.flipCell_batch (s : State) (j : Nat) : (s.flipCell j).batch = s.batch := rfl
@[simp] theorem State.flipCell_inputs (s : State) (j : Nat) : (s.flipCell j).inputs = s.inputs := rfl

/-! ### `clearCells` -/

@[simp] theorem State.clearCells_v (s : State) : (s.clearCells).v = s.v := rfl
@[simp] theorem State.clearCells_i (s : State) : (s.clearCells).i = s.i := rfl
@[simp] theorem State.clearCells_pc (s : State) : (s.clearCells).pc = s.pc := rfl
@[simp] theorem State.clearCells_sp (s : State) : (s.clearCells).sp = s.sp := rfl
@[simp] theorem State.clearCells_dt (s : State) : (s.clearCells).dt = s.dt := rfl
@[simp] theorem State.clearCells_st (s : State) : (s.clearCells).st = s.st := rfl
@[simp] theorem State.clearCells_run (s : State) : (s.clearCells).run = s.run := rfl
@[simp] theorem State.clearCells_haltReg (s : State) : (s.clearCells).haltReg = s.haltReg := rfl
@[simp] theorem State.clearCells_mem (s : State) : (s.clearCells).mem = s.mem := rfl
@[simp] theorem State.clearCells_keys (s : State) : (s.clearCells).keys = s.keys := rfl
@[simp] theorem State.clearCells_cycleAcc (s : State) : (s.clearCells).cycleAcc = s.cycleAcc := rfl
@[simp] theorem State.clearCells_timerAcc (s : State) : (s.clearCells).timerAcc = s.timerAcc := rfl
@[simp] theorem State.clearCells_cfg (s : State) : (s.clearCells).cfg = s.cfg := rfl
@[simp] theorem State.clearCells_draws (s : State) : (s.clearCells).draws = s.draws := rfl
@[simp] theorem State.clearCells_batch (s : State) : (s.clearCells).batch = s.batch := rfl
@[simp] theorem State.clearCells_inputs (s : State) : (s.clearCells).inputs = s.inputs := rfl

/-! ### `advancePc` -/

@[simp] theorem State.advancePc_v (s : State) : (s.advancePc).v = s.v := rfl
@[simp] theorem State.advancePc_i (s : State) : (s.advancePc).i = s.i := rfl
@[simp] theorem State.advancePc_sp (s : State) : (s.advancePc).sp = s.sp := rfl
@[simp] theorem State.advancePc_dt (s : State) : (s.advancePc).dt = s.dt := rfl
@[simp] theorem State.advancePc_st (s : State) : (s.advancePc).st = s.st := rfl
@[simp] theorem State.advancePc_run (s : State) : (s.advancePc).run = s.run := rfl
@[simp] theorem State.advancePc_haltReg (s : State) : (s.advancePc).haltReg = s.haltReg := rfl
@[simp] theorem State.advancePc_mem (s : State) : (s.advancePc).mem = s.mem := rfl
@[simp] theorem State.advancePc_fb (s : State) : (s.advancePc).fb = s.fb := rfl
@[simp] theorem State.advancePc_keys (s : State) : (s.advancePc).keys = s.keys := rfl
@[simp] theorem State.advancePc_cycleAcc (s : State) : (s.advancePc).cycleAcc = s.cycleAcc := rfl
@[simp] theorem State.advancePc_timerAcc (s : State) : (s.advancePc).timerAcc = s.timerAcc := rfl
@[simp] theorem State.advancePc_cfg (s : State) : (s.advancePc).cfg = s.cfg := rfl
@[simp] theorem State.advancePc_draws (s : State) : (s.advancePc).draws = s.draws := rfl
@[simp] theorem State.advancePc_batch (s : State) : (s.advancePc).batch = s.batch := rfl
@[simp] theorem State.advancePc_inputs (s : State) : (s.advancePc).inputs = s.inputs := rfl

@[simp] theorem State.advancePc_pc (s : State) : s.advancePc.pc = s.pc + 2 := rfl

/-! ### `skipIf` -/

@[simp] theorem State.skipIf_v (s : State) (c : Bool) : (s.skipIf c).v = s.v := by cases c <;> rfl
@[simp] theorem State.skipIf_i (s : State) (c : Bool) : (s.skipIf c).i = s.i := by cases c <;> rfl
@[simp] theorem State.skipIf_sp (s : State) (c : Bool) : (s.skipIf c).sp = s.sp := by cases c <;> rfl
@[simp] theorem State.skipIf_dt (s : State) (c : Bool) : (s.skipIf c).dt = s.dt := by cases c <;> rfl
@[simp] theorem State.skipIf_st (s : State) (c : Bool) : (s.skipIf c).st = s.st := by cases c <;> rfl
@[simp] theorem State.skipIf_run (s : State) (c : Bool) : (s.skipIf c).run = s.run := by cases c <;> rfl
@[simp] theorem State.skipIf_haltReg (s : State) (c : Bool) : (s.skipIf c).haltReg = s.haltReg := by cases c <;> rfl
@[simp] theorem State.skipIf_mem (s : State) (c : Bool) : (s.skipIf c).mem = s.mem := by cases c <;> rfl
@[simp] theorem State.skipIf_fb (s : State) (c : Bool) : (s.skipIf c).fb = s.fb := by cases c <;> rfl
@[simp] theorem State.skipIf_keys (s : State) (c : Bool) : (s.skipIf c).keys = s.keys := by cases c <;> rfl
@[simp] theorem State.skipIf_cycleAcc (s : State) (c : Bool) : (s.skipIf c).cycleAcc = s.cycleAcc := by cases c <;> rfl
@[simp] theorem State.skipIf_timerAcc (s : State) (c : Bool) : (s.skipIf c).timerAcc = s.timerAcc := by cases c <;> rfl
@[simp] theorem State.skipIf_cfg (s : State) (c : Bool) : (s.skipIf c).cfg = s.cfg := by cases c <;> rfl
@[simp] theorem State.skipIf_draws (s : State) (c : Bool) : (s.skipIf c).draws = s.draws := by cases c <;> rfl
@[simp] theorem State.skipIf_batch (s : State) (c : Bool) : (s.skipIf c).batch = s.batch := by cases c <;> rfl
@[simp] theorem State.skipIf_inputs (s : State) (c : Bool) : (s.skipIf c).inputs = s.inputs := by cases c <;> rfl

@[simp] theorem State.skipIf_pc (s : State) (c : Bool) : (s.skipIf c).pc = if c then s.pc + 2 else s.pc := by cases c <;> rfl

/-! ### `enterFatal` -/

@[simp] theorem State.enterFatal_v (s : State) (k : FatalKind) : (s.enterFatal k).v = s.v := rfl
@[simp] theorem State.enterFatal_i (s : State) (k : FatalKind) : (s.enterFatal k).i = s.i := rfl
@[simp] theorem State.enterFatal_pc (s : State) (k : FatalKind) : (s.enterFatal k).pc = s.pc := rfl
@[simp] theorem State.enterFatal_sp (s : State) (k : FatalKind) : (s.enterFatal k).sp = s.sp := rfl
@[simp] theorem State.enterFatal_dt (s : State) (k : FatalKind) : (s.enterFatal k).dt = s.dt := rfl
@[simp] theorem State.enterFatal_st (s : State) (k : FatalKind) : (s.enterFatal k).st = s.st := rfl
@[simp] theorem State.enterFatal_haltReg (s : State) (k : FatalKind) : (s.enterFatal k).haltReg = s.haltReg := rfl
@[simp] theorem State.enterFatal_mem (s : State) (k : FatalKind) : (s.enterFatal k).mem = s.mem := rfl
@[simp] theorem State.enterFatal_fb (s : State) (k : FatalKind) : (s.enterFatal k).fb = s.fb := rfl
@[simp] theorem State.enterFatal_keys (s : State) (k : FatalKind) : (s.enterFatal k).keys = s.keys := rfl
@[simp] theorem State.enterFatal_cycleAcc (s : State) (k : FatalKind) : (s.enterFatal k).cycleAcc = s.cycleAcc := rfl
@[simp] theorem State.enterFatal_timerAcc (s : State) (k : FatalKind) : (s.enterFatal k).timerAcc = s.timerAcc := rfl
@[simp] theorem State.enterFatal_cfg (s : State) (k : FatalKind) : (s.enterFatal k).cfg = s.cfg := rfl
@[simp] theorem State.enterFatal_draws (s : State) (k : FatalKind) : (s.enterFatal k).draws = s.draws := rfl
@[simp] theorem State.enterFatal_batch (s : State) (k : FatalKind) : (s.enterFatal k).batch = s.batch := rfl
@[simp] theorem State.enterFatal_inputs (s : State) (k : FatalKind) : (s.enterFatal k).inputs = s.inputs := rfl

@[simp] theorem State.enterFatal_run (s : State) (k : FatalKind) : (s.enterFatal k).run = .fatal k := rfl

/-! ### `setDelayTimer` -/

@[simp] theorem State.setDelayTimer_v (s : State) (u : Byte) : (s.setDelayTimer u).v = s.v := rfl
@[simp] theorem State.setDelayTimer_i (s : State) (u : Byte) : (s.setDelayTimer u).i = s.i := rfl
@[simp] theorem State.setDelayTimer_pc (s : State) (u : Byte) : (s.setDelayTimer u).pc = s.pc := rfl
@[simp] theorem State.setDelayTimer_sp (s : State) (u : Byte) : (s.setDelayTimer u).sp = s.sp := rfl
@[simp] theorem State.setDelayTimer_st (s : State) (u : Byte) : (s.setDelayTimer u).st = s.st := rfl
@[simp] theorem State.setDelayTimer_run (s : State) (u : Byte) : (s.setDelayTimer u).run = s.run := rfl
@[simp] theorem State.setDelayTimer_haltReg (s : State) (u : Byte) : (s.setDelayTimer u).haltReg = s.haltReg := rfl
@[simp] theorem State.setDelayTimer_mem (s : State) (u : Byte) : (s.setDelayTimer u).mem = s.mem := rfl
@[simp] theorem State.setDelayTimer_fb (s : State) (u : Byte) : (s.setDelayTimer u).fb = s.fb := rfl
@[simp] theorem State.setDelayTimer_keys (s : State) (u : Byte) : (s.setDelayTimer u).keys = s.keys := rfl
@[simp] theorem State.setDelayTimer_cycleAcc (s : State) (u : Byte) : (s.setDelayTimer u).cycleAcc = s.cycleAcc := rfl
@[simp] theorem State.setDelayTimer_cfg (s : State) (u : Byte) : (s.setDelayTimer u).cfg = s.cfg := rfl
@[simp] theorem State.setDelayTimer_draws (s : State) (u : Byte) : (s.setDelayTimer u).draws = s.draws := rfl
@[simp] theorem State.setDelayTimer_batch (s : State) (u : Byte) : (s.setDelayTimer u).batch = s.batch := rfl
@[simp] theorem State.setDelayTimer_inputs (s : State) (u : Byte) : (s.setDelayTimer u).inputs = s.inputs := rfl

@[simp] theorem State.setDelayTimer_dt (s : State) (u : Byte) : (s.setDelayTimer u).dt = u := rfl
@[simp] theorem State.setDelayTimer_timerAcc (s : State) (u : Byte) :
    (s.setDelayTimer u).timerAcc = if s.dt = 0 ∨ u = 0 then 0 else s.timerAcc := rfl

/-- After a write the accumulator of a stopped timer is 0, whatever it was before (R271). -/
theorem State.setDelayTimer_held (s : State) (u : Byte) (h : (s.setDelayTimer u).dt = 0) : (s.setDelayTimer u).timerAcc = 0 :=
  if_pos (.inr h)

/-- Two writes with a 0 between them start a fresh count (R234, R271). -/
theorem State.setDelayTimer_fresh (s : State) (u : Byte) : ((s.setDelayTimer 0).setDelayTimer u).timerAcc = 0 := by simp

/-! ### `haltForKey` -/

@[simp] theorem State.haltForKey_v (s : State) (r : Reg) : (s.haltForKey r).v = s.v := rfl
@[simp] theorem State.haltForKey_i (s : State) (r : Reg) : (s.haltForKey r).i = s.i := rfl
@[simp] theorem State.haltForKey_pc (s : State) (r : Reg) : (s.haltForKey r).pc = s.pc := rfl
@[simp] theorem State.haltForKey_sp (s : State) (r : Reg) : (s.haltForKey r).sp = s.sp := rfl
@[simp] theorem State.haltForKey_dt (s : State) (r : Reg) : (s.haltForKey r).dt = s.dt := rfl
@[simp] theorem State.haltForKey_st (s : State) (r : Reg) : (s.haltForKey r).st = s.st := rfl
@[simp] theorem State.haltForKey_mem (s : State) (r : Reg) : (s.haltForKey r).mem = s.mem := rfl
@[simp] theorem State.haltForKey_fb (s : State) (r : Reg) : (s.haltForKey r).fb = s.fb := rfl
@[simp] theorem State.haltForKey_keys (s : State) (r : Reg) : (s.haltForKey r).keys = s.keys := rfl
@[simp] theorem State.haltForKey_cycleAcc (s : State) (r : Reg) : (s.haltForKey r).cycleAcc = s.cycleAcc := rfl
@[simp] theorem State.haltForKey_timerAcc (s : State) (r : Reg) : (s.haltForKey r).timerAcc = s.timerAcc := rfl
@[simp] theorem State.haltForKey_cfg (s : State) (r : Reg) : (s.haltForKey r).cfg = s.cfg := rfl
@[simp] theorem State.haltForKey_draws (s : State) (r : Reg) : (s.haltForKey r).draws = s.draws := rfl
@[simp] theorem State.haltForKey_batch (s : State) (r : Reg) : (s.haltForKey r).batch = s.batch := rfl
@[simp] theorem State.haltForKey_inputs (s : State) (r : Reg) : (s.haltForKey r).inputs = s.inputs := rfl

@[simp] theorem State.haltForKey_run (s : State) (r : Reg) : (s.haltForKey r).run = .haltedForKey := rfl
@[simp] theorem State.haltForKey_haltReg (s : State) (r : Reg) : (s.haltForKey r).haltReg = r := rfl

/-! ### `afterDraw` -/

@[simp] theorem State.afterDraw_v (s : State) : (s.afterDraw).v = s.v := rfl
@[simp] theorem State.afterDraw_i (s : State) : (s.afterDraw).i = s.i := rfl
@[simp] theorem State.afterDraw_pc (s : State) : (s.afterDraw).pc = s.pc := rfl
@[simp] theorem State.afterDraw_sp (s : State) : (s.afterDraw).sp = s.sp := rfl
@[simp] theorem State.afterDraw_dt (s : State) : (s.afterDraw).dt = s.dt := rfl
@[simp] theorem State.afterDraw_st (s : State) : (s.afterDraw).st = s.st := rfl
@[simp] theorem State.afterDraw_run (s : State) : (s.afterDraw).run = s.run := rfl
@[simp] theorem State.afterDraw_haltReg (s : State) : (s.afterDraw).haltReg = s.haltReg := rfl
@[simp] theorem State.afterDraw_mem (s : State) : (s.afterDraw).mem = s.mem := rfl
@[simp] theorem State.afterDraw_fb (s : State) : (s.afterDraw).fb = s.fb := rfl
@[simp] theorem State.afterDraw_keys (s : State) : (s.afterDraw).keys = s.keys := rfl
@[simp] theorem State.afterDraw_cycleAcc (s : State) : (s.afterDraw).cycleAcc = s.cycleAcc := rfl
@[simp] theorem State.afterDraw_timerAcc (s : State) : (s.afterDraw).timerAcc = s.timerAcc := rfl
@[simp] theorem State.afterDraw_cfg (s : State) : (s.afterDraw).cfg = s.cfg := rfl
@[simp] theorem State.afterDraw_batch (s : State) : (s.afterDraw).batch = s.batch := rfl
@[simp] theorem State.afterDraw_inputs (s : State) : (s.afterDraw).inputs = s.inputs := rfl

@[simp] theorem State.afterDraw_draws (s : State) : s.afterDraw.draws = s.draws + 1 := rfl

/-! ### `writeResultAndFlag` -/

@[simp] theorem State.writeResultAndFlag_i (s : State) (x : Reg) (r : Byte) (f : Bool) : (s.writeResultAndFlag x r f).i = s.i := by unfold State.writeResultAndFlag; cases s.cfg.flagOrder <;> rfl
@[simp] theorem State.writeResultAndFlag_pc (s : State) (x : Reg) (r : Byte) (f : Bool) : (s.writeResultAndFlag x r f).pc = s.pc := by unfold State.writeResultAndFlag; cases s.cfg.flagOrder <;> rfl
@[simp] theorem State.writeResultAndFlag_sp (s : State) (x : Reg) (r : Byte) (f : Bool) : (s.writeResultAndFlag x r f).sp = s.sp := by unfold State.writeResultAndFlag; cases s.cfg.flagOrder <;> rfl
@[simp] theorem State.writeResultAndFlag_dt (s : State) (x : Reg) (r : Byte) (f : Bool) : (s.writeResultAndFlag x r f).dt = s.dt := by unfold State.writeResultAndFlag; cases s.cfg.flagOrder <;> rfl
@[simp] theorem State.writeResultAndFlag_st (s : State) (x : Reg) (r : Byte) (f : Bool) : (s.writeResultAndFlag x r f).st = s.st := by unfold State.writeResultAndFlag; cases s.cfg.flagOrder <;> rfl
@[simp] theorem State.writeResultAndFlag_run (s : State) (x : Reg) (r : Byte) (f : Bool) : (s.writeResultAndFlag x r f).run = s.run := by unfold State.writeResultAndFlag; cases s.cfg.flagOrder <;> rfl
@[simp] theorem State.writeResultAndFlag_haltReg (s : State) (x : Reg) (r : Byte) (f : Bool) : (s.writeResultAndFlag x r f).haltReg = s.haltReg := by unfold State.writeResultAndFlag; cases s.cfg.flagOrder <;> rfl
@[simp] theorem State.writeResultAndFlag_mem (s : State) (x : Reg) (r : Byte) (f : Bool) : (s.writeResultAndFlag x r f).mem = s.mem := by unfold State.writeResultAndFlag; cases s.cfg.flagOrder <;> rfl
@[simp] theorem State.writeResultAndFlag_fb (s : State) (x : Reg) (r : Byte) (f : Bool) : (s.writeResultAndFlag x r f).fb = s.fb := by unfold State.writeResultAndFlag; cases s.cfg.flagOrder <;> rfl
@[simp] theorem State.writeResultAndFlag_keys (s : State) (x : Reg) (r : Byte) (f : Bool) : (s.writeResultAndFlag x r f).keys = s.keys := by unfold State.writeResultAndFlag; cases s.cfg.flagOrder <;> rfl
@[simp] theorem State.writeResultAndFlag_cycleAcc (s : State) (x : Reg) (r : Byte) (f : Bool) : (s.writeResultAndFlag x r f).cycleAcc = s.cycleAcc := by unfold State.writeResultAndFlag; cases s.cfg.flagOrder <;> rfl
@[simp] theorem State.writeResultAndFlag_timerAcc (s : State) (x : Reg) (r : Byte) (f : Bool) : (s.writeResultAndFlag x r f).timerAcc = s.timerAcc := by unfold State.writeResultAndFlag; cases s.cfg.flagOrder <;> rfl
@[simp] theorem State.writeResultAndFlag_cfg (s : State) (x : Reg) (r : Byte) (f : Bool) : (s.writeResultAndFlag x r f).cfg = s.cfg := by unfold State.writeResultAndFlag; cases s.cfg.flagOrder <;> rfl
@[simp] theorem State.writeResultAndFlag_draws (s : State) (x : Reg) (r : Byte) (f : Bool) : (s.writeResultAndFlag x r f).draws = s.draws := by unfold State.writeResultAndFlag; cases s.cfg.flagOrder <;> rfl
@[simp] theorem State.writeResultAndFlag_batch (s : State) (x : Reg) (r : Byte) (f : Bool) : (s.writeResultAndFlag x r f).batch = s.batch := by unfold State.writeResultAndFlag; cases s.cfg.flagOrder <;> rfl
@[simp] theorem State.writeResultAndFlag_inputs (s : State) (x : Reg) (r : Byte) (f : Bool) : (s.writeResultAndFlag x r f).inputs = s.inputs := by unfold State.writeResultAndFlag; cases s.cfg.flagOrder <;> rfl

/-! ### `resumeIfKey` -/

@[simp] theorem State.resumeIfKey_i (s : State) : (s.resumeIfKey).i = s.i := by unfold State.resumeIfKey; split <;> rfl
@[simp] theorem State.resumeIfKey_pc (s : State) : (s.resumeIfKey).pc = s.pc := by unfold State.resumeIfKey; split <;> rfl
@[simp] theorem State.resumeIfKey_sp (s : State) : (s.resumeIfKey).sp = s.sp := by unfold State.resumeIfKey; split <;> rfl
@[simp] theorem State.resumeIfKey_dt (s : State) : (s.resumeIfKey).dt = s.dt := by unfold State.resumeIfKey; split <;> rfl
@[simp] theorem State.resumeIfKey_st (s : State) : (s.resumeIfKey).st = s.st := by unfold State.resumeIfKey; split <;> rfl
@[simp] theorem State.resumeIfKey_haltReg (s : State) : (s.resumeIfKey).haltReg = s.haltReg := by unfold State.resumeIfKey; split <;> rfl
@[simp] theorem State.resumeIfKey_mem (s : State) : (s.resumeIfKey).mem = s.mem := by unfold State.resumeIfKey; split <;> rfl
@[simp] theorem State.resumeIfKey_fb (s : State) : (s.resumeIfKey).fb = s.fb := by unfold State.resumeIfKey; split <;> rfl
@[simp] theorem State.resumeIfKey_keys (s : State) : (s.resumeIfKey).keys = s.keys := by unfold State.resumeIfKey; split <;> rfl
@[simp] theorem State.resumeIfKey_cycleAcc (s : State) : (s.resumeIfKey).cycleAcc = s.cycleAcc := by unfold State.resumeIfKey; split <;> rfl
@[simp] theorem State.resumeIfKey_timerAcc (s : State) : (s.resumeIfKey).timerAcc = s.timerAcc := by unfold State.resumeIfKey; split <;> rfl
@[simp] theorem State.resumeIfKey_cfg (s : State) : (s.resumeIfKey).cfg = s.cfg := by unfold State.resumeIfKey; split <;> rfl
@[simp] theorem State.resumeIfKey_draws (s : State) : (s.resumeIfKey).draws = s.draws := by unfold State.resumeIfKey; split <;> rfl
@[simp] theorem State.resumeIfKey_batch (s : State) : (s.resumeIfKey).batch = s.batch := by unfold State.resumeIfKey; split <;> rfl
@[simp] theorem State.resumeIfKey_inputs (s : State) : (s.resumeIfKey).inputs = s.inputs := by unfold State.resumeIfKey; split <;> rfl

/-! ### Reads through the updates -/

@[simp] theorem State.readV_writeV (s : State) (x r : Reg) (u : Byte) :
    (s.writeV x u).readV r = if r = x then u else s.readV r := by
  simp only [State.readV, State.writeV, Vector.getElem_set, Fin.ext_iff, eq_comm]

/-- A register reads the same in two states with the same register file. -/
theorem State.readV_congr {s t : State} (h : t.v = s.v) (r : Reg) : t.readV r = s.readV r := by
  simp only [State.readV, h]

/-- A cell reads the same in two states with the same framebuffer. -/
theorem State.cell_congr {s t : State} (h : t.fb = s.fb) (j : Nat) : t.cell j = s.cell j := by
  simp only [State.cell, h]

@[simp] theorem State.cell_writeV (s : State) (r : Reg) (u : Byte) (j : Nat) : (s.writeV r u).cell j = s.cell j := rfl

@[simp] theorem State.readV_clearCells (s : State) (r : Reg) : s.clearCells.readV r = s.readV r := rfl
@[simp] theorem State.readV_advancePc (s : State) (r : Reg) : s.advancePc.readV r = s.readV r := rfl
@[simp] theorem State.readV_skipIf (s : State) (c : Bool) (r : Reg) : (s.skipIf c).readV r = s.readV r := by cases c <;> rfl
@[simp] theorem State.readV_enterFatal (s : State) (k : FatalKind) (r : Reg) : (s.enterFatal k).readV r = s.readV r := rfl
@[simp] theorem State.readV_setDelayTimer (s : State) (u : Byte) (r : Reg) : (s.setDelayTimer u).readV r = s.readV r := rfl
@[simp] theorem State.readV_haltForKey (s : State) (x r : Reg) : (s.haltForKey x).readV r = s.readV r := rfl
@[simp] theorem State.readV_afterDraw (s : State) (r : Reg) : s.afterDraw.readV r = s.readV r := rfl

@[simp] theorem State.readV_flipCell (s : State) (r : Reg) (j : Nat) : (s.flipCell j).readV r = s.readV r := rfl

@[simp] theorem State.cell_flipCell (s : State) (j k : Nat) (hj : j < 2048) :
    (s.flipCell j).cell k = (s.cell k != decide (k = j)) := by
  simp only [State.flipCell, State.cell, Vector.getElem?_setIfInBounds]
  by_cases h : j / 64 = k / 64
  · have h32 : j / 64 < 32 := by omega
    have hk : k % 64 < 64 := by omega
    have hjk : (k % 64 = j % 64) ↔ (k = j) := by omega
    simp [← h, h32, hk, hjk]
  · have hjk : k ≠ j := by rintro rfl; exact h rfl
    simp [h, hjk]

@[simp] theorem State.cell_clearCells (s : State) (j : Nat) : s.clearCells.cell j = false := by
  simp only [State.clearCells, State.cell, Vector.getElem?_replicate]
  split <;> simp

/-- What every register holds after a result and a flag, by the order of the two writes (R140 (c)). -/
theorem State.readV_writeResultAndFlag (s : State) (x r : Reg) (u : Byte) (f : Bool) :
    (s.writeResultAndFlag x u f).readV r =
      match s.cfg.flagOrder with
      | .flagLast   => if r = s.cfg.flagReg then flagByte f else if r = x then u else s.readV r
      | .resultLast => if r = x then u else if r = s.cfg.flagReg then flagByte f else s.readV r := by
  unfold State.writeResultAndFlag
  cases s.cfg.flagOrder <;> simp

@[simp] theorem flagByte_toNat (f : Bool) : (flagByte f).toNat = f.toNat := by cases f <;> rfl

end Sys2Proof.Machine
end

