-- ==== Sys2Proof/Laws/Ops.lean ====
section
/-! SUPPORT. What each shared operation over memory, registers and the stack can do, said once: in range, out of range, and what it
leaves alone. -/

namespace Sys2Proof.Machine

@[simp] theorem Attempt.andThen_ok {α β : Type} (a : α) (s : State) (f : α → State → Attempt β) :
    (Attempt.ok a s).andThen f = f a s := rfl

@[simp] theorem Attempt.andThen_raised {α β : Type} (k : FatalKind) (s : State) (f : α → State → Attempt β) :
    (Attempt.raised k s).andThen f = .raised k s := rfl

@[simp] theorem Attempt.finish_ok (s : State) : (Attempt.ok () s).finish = .next s := rfl

@[simp] theorem Attempt.finish_raised (k : FatalKind) (s : State) :
    (Attempt.raised k s).finish = .next (s.enterFatal k) := rfl

/-! ### Bytes and words -/

theorem memRead_ok {a : Nat} {s : State} (h : a < s.cfg.memSize) : memRead a s = .ok (s.mem.read a) s := if_pos h

theorem memRead_raised {a : Nat} {s : State} (h : s.cfg.memSize ≤ a) : memRead a s = .raised .memRange s :=
  if_neg (Nat.not_lt.2 h)

theorem memWrite_ok {a : Nat} {s : State} (u : Byte) (h : a < s.cfg.memSize) :
    memWrite a u s = .ok () { s with mem := s.mem.write a u } := if_pos h

theorem memWrite_raised {a : Nat} {s : State} (u : Byte) (h : s.cfg.memSize ≤ a) :
    memWrite a u s = .raised .memRange s := if_neg (Nat.not_lt.2 h)

theorem readWord_ok {a : Nat} {s : State} (h : a + 1 < s.cfg.memSize) :
    readWord a s = .ok (joinBytes (s.mem.read a) (s.mem.read (a + 1))) s := by
  simp only [readWord, memRead_ok (Nat.lt_of_succ_lt h), memRead_ok h, Attempt.andThen_ok]

theorem readWord_raised {a : Nat} {s : State} (h : s.cfg.memSize ≤ a + 1) : readWord a s = .raised .memRange s := by
  unfold readWord
  by_cases ha : a < s.cfg.memSize
  · simp only [memRead_ok ha, memRead_raised h, Attempt.andThen_ok, Attempt.andThen_raised]
  · simp only [memRead_raised (Nat.not_lt.1 ha), Attempt.andThen_raised]

theorem fetch_ok {s : State} (h : s.pc.toNat + 1 < s.cfg.memSize) :
    fetch s = .ok (joinBytes (s.mem.read s.pc.toNat) (s.mem.read (s.pc.toNat + 1))) s := readWord_ok h

theorem fetch_raised {s : State} (h : s.cfg.memSize ≤ s.pc.toNat + 1) : fetch s = .raised .memRange s := readWord_raised h

/-- The two bytes of a joined word as one number (R53). -/
theorem joinBytes_toNat (hi lo : Byte) : (joinBytes hi lo).toNat = 256 * hi.toNat + lo.toNat := by
  have h : (joinBytes hi lo).toNat = hi.toNat <<< 8 ||| lo.toNat := BitVec.toNat_append hi lo
  rw [h, Nat.shiftLeft_eq, Nat.mul_comm, ← Nat.two_pow_add_eq_or_of_lt lo.isLt]

theorem highByte_toNat (w : Word) : (highByte w).toNat = w.toNat / 256 := by
  have := w.isLt
  simp only [highByte, BitVec.extractLsb'_toNat, Nat.shiftRight_eq_div_pow]; omega

theorem lowByte_toNat (w : Word) : (lowByte w).toNat = w.toNat % 256 := by
  simp [lowByte, BitVec.extractLsb'_toNat]

@[simp] theorem joinBytes_high_low (w : Word) : joinBytes (highByte w) (lowByte w) = w := by
  apply BitVec.eq_of_toNat_eq
  rw [joinBytes_toNat, highByte_toNat, lowByte_toNat]; omega

/-! ### Transfers of several bytes -/

/-- In range, every byte is placed. -/
theorem storeBytes_ok (bytes : List Byte) (a : Nat) (s : State) (h : ∀ k, k < bytes.length → a + k < s.cfg.memSize) :
    storeBytes a bytes s = .ok () { s with mem := Memory.place a bytes s.mem } := by
  induction bytes generalizing a s with
  | nil => rfl
  | cons u rest ih =>
    rw [storeBytes, memWrite_ok u (by simpa using h 0 (by simp)), Attempt.andThen_ok, ih]
    · rfl
    · intro k hk
      have := h (k + 1) (by simpa using hk)
      show a + 1 + k < s.cfg.memSize
      omega

/-- Out of range, the bytes before the first unbacked address are placed (R260). -/
theorem storeBytes_raised (bytes : List Byte) (a : Nat) (s : State) (h : s.cfg.memSize < a + bytes.length) (h0 : bytes ≠ []) :
    storeBytes a bytes s =
      .raised .memRange { s with mem := Memory.place a (bytes.take (s.cfg.memSize - a)) s.mem } := by
  induction bytes generalizing a s with
  | nil => exact absurd rfl h0
  | cons u rest ih =>
    rw [storeBytes]
    by_cases ha : a < s.cfg.memSize
    · have hr : rest ≠ [] := by rintro rfl; simp at h; omega
      rw [memWrite_ok u ha, Attempt.andThen_ok, ih _ _ (by simp only [List.length_cons] at h; show s.cfg.memSize < _; omega) hr]
      have : s.cfg.memSize - a = (s.cfg.memSize - (a + 1)) + 1 := by omega
      rw [this, List.take_succ_cons]
      rfl
    · rw [memWrite_raised u (Nat.not_lt.1 ha), Attempt.andThen_raised, Nat.sub_eq_zero_of_le (Nat.not_lt.1 ha)]
      rfl

/-- A store ends with nothing changed but memory, which stays canonical and inside the backed bytes. -/
theorem storeBytes_cases (bytes : List Byte) (a : Nat) (s : State) :
    ∃ m : Memory, (storeBytes a bytes s = .ok () { s with mem := m } ∨
        storeBytes a bytes s = .raised .memRange { s with mem := m }) ∧
      (s.mem.wf → m.wf) ∧ ((∀ c ∈ s.mem, c.1 < s.cfg.memSize) → ∀ c ∈ m, c.1 < s.cfg.memSize) := by
  induction bytes generalizing a s with
  | nil => exact ⟨s.mem, .inl rfl, id, id⟩
  | cons u rest ih =>
    rw [storeBytes]
    by_cases ha : a < s.cfg.memSize
    · rw [memWrite_ok u ha, Attempt.andThen_ok]
      obtain ⟨m, h, hw, hb⟩ := ih (a + 1) { s with mem := s.mem.write a u }
      exact ⟨m, h, fun w => hw (Memory.wf_write _ _ _ w), fun b => hb (Memory.bounded_write ha b)⟩
    · rw [memWrite_raised u (Nat.not_lt.1 ha), Attempt.andThen_raised]
      exact ⟨s.mem, .inr rfl, id, id⟩

/-- A load ends with nothing changed but general registers: with the addresses backed it succeeds, and otherwise raises MEM_RANGE;
each register whose address is backed takes its byte, the others stay. -/
theorem loadRegs_spec (regs : List Reg) (a : Nat) (s : State) (hn : regs.Nodup) :
    ∃ t : State, t = { s with v := t.v } ∧
      loadRegs a regs s = (if ∀ k, k < regs.length → a + k < s.cfg.memSize then .ok () t else .raised .memRange t) ∧
      (∀ k, (hk : k < regs.length) → t.readV regs[k] =
        if a + k < s.cfg.memSize then s.mem.read (a + k) else s.readV regs[k]) ∧
      (∀ r, r ∉ regs → t.readV r = s.readV r) := by
  induction regs generalizing a s with
  | nil => exact ⟨s, rfl, by simp [loadRegs], by simp, by simp⟩
  | cons r rest ih =>
    rw [List.nodup_cons] at hn
    rw [loadRegs]
    by_cases ha : a < s.cfg.memSize
    · obtain ⟨t, ht, hl, hin, hout⟩ := ih (a + 1) (s.writeV r (s.mem.read a)) hn.2
      refine ⟨t, by rw [ht]; rfl, ?_, ?_, ?_⟩
      · rw [memRead_ok ha, Attempt.andThen_ok, hl]
        refine if_congr ⟨fun h k hk => ?_, fun h k hk => ?_⟩ rfl rfl
        · rcases k with _ | k
          · exact ha
          · have := h k (by simpa using hk)
            simp only [State.writeV_cfg] at this
            omega
        · have := h (k + 1) (by simpa using hk)
          simp only [State.writeV_cfg]
          omega
      · intro k hk
        rcases k with _ | k
        · simpa [ha] using hout r hn.1
        · have h := hin k (by simpa using hk)
          have hne : rest[k]'(by simpa using hk) ≠ r := fun e => hn.1 (e ▸ List.getElem_mem _)
          simp only [State.writeV_cfg, State.writeV_mem, State.readV_writeV, hne, if_false] at h
          simpa [Nat.add_assoc, Nat.add_comm 1 k] using h
      · intro q hq
        simp only [List.mem_cons, not_or] at hq
        simpa [hq.1] using hout q hq.2
    · rw [memRead_raised (Nat.not_lt.1 ha), Attempt.andThen_raised]
      refine ⟨s, rfl, (if_neg fun h => ha (by simpa using h 0 (by simp))).symm, ?_, fun _ _ => rfl⟩
      intro k _
      rw [if_neg (by omega)]

/-! ### The registers of a transfer (R184, R185) -/

theorem regsUpTo_length (x : Reg) : (regsUpTo x).length = x.val + 1 := by revert x; decide

theorem regsUpTo_getElem (x : Reg) (k : Nat) (h : k < (regsUpTo x).length) : ((regsUpTo x)[k]).val = k := by
  simp [regsUpTo]

theorem mem_regsUpTo (x r : Reg) : r ∈ regsUpTo x ↔ r ≤ x := by revert x r; decide

theorem regsUpTo_nodup (x : Reg) : (regsUpTo x).Nodup := by revert x; decide

/-! ### The stack engine (R58, R59) -/

theorem push_overflow {u : Word} {s : State} (h : s.sp.toNat < s.cfg.stackLow + 2) : push u s = .raised .stackOverflow s := if_pos h

/-- A push with a slot free and the slot's bytes backed. -/
theorem push_ok {u : Word} {s : State} (h : s.cfg.stackLow + 2 ≤ s.sp.toNat) (hm : s.sp.toNat ≤ s.cfg.memSize) :
    push u s = .ok () { s with
      sp := s.sp - 2
      mem := (s.mem.write (s.sp.toNat - 2) (highByte u)).write (s.sp.toNat - 1) (lowByte u) } := by
  have hsp : (s.sp - 2).toNat = s.sp.toNat - 2 := by
    rw [BitVec.toNat_sub_of_le] <;> simp [BitVec.le_def]; omega
  simp only [push, Nat.not_lt.2 h, if_false, hsp]
  rw [storeBytes_ok]
  · have h1 : s.sp.toNat - 2 + 1 = s.sp.toNat - 1 := by omega
    simp only [Memory.place, h1]
  · intro k hk
    simp only [List.length_cons, List.length_nil] at hk
    show s.sp.toNat - 2 + k < s.cfg.memSize
    omega

theorem pop_underflow {s : State} (h : s.cfg.stackTop < s.sp.toNat + 2) : pop s = .raised .stackUnderflow s := by
  simp only [pop, peek, h, if_true, Attempt.andThen_raised]

/-- A pop with a slot in use and the slot's bytes backed. -/
theorem pop_ok {s : State} (h : s.sp.toNat + 2 ≤ s.cfg.stackTop) (hm : s.sp.toNat + 1 < s.cfg.memSize) :
    pop s = .ok (joinBytes (s.mem.read s.sp.toNat) (s.mem.read (s.sp.toNat + 1))) { s with sp := s.sp + 2 } := by
  simp only [pop, peek, Nat.not_lt.2 h, if_false, readWord_ok hm, Attempt.andThen_ok]

/-! ### The lowest pressed key (R276) -/

theorem lowestPressed_spec (keys : BitVec 16) (k : Fin 16) :
    lowestPressed keys = some k ↔ keys.getLsbD k.val = true ∧ ∀ j : Nat, j < k.val → keys.getLsbD j = false := by
  unfold lowestPressed
  rw [List.find?_eq_some_iff_getElem]
  constructor
  · rintro ⟨hk, i, hi, he, hlt⟩
    simp only [List.getElem_finRange, List.length_finRange] at he hi hlt
    have hik : i = k.val := by rw [← he]; rfl
    subst hik
    refine ⟨hk, fun j hj => ?_⟩
    have := hlt j hj
    simpa using this
  · rintro ⟨hk, hlt⟩
    refine ⟨hk, k.val, by simp, by simp, fun j hj => ?_⟩
    have := hlt j hj
    simpa using this

theorem lowestPressed_none (keys : BitVec 16) : lowestPressed keys = none ↔ keys = 0 := by
  unfold lowestPressed
  rw [List.find?_eq_none]
  constructor
  · intro h
    apply BitVec.eq_of_getLsbD_eq
    intro i hi
    have := h ⟨i, hi⟩ (List.mem_finRange _)
    simpa using this
  · rintro rfl k -
    simp

end Sys2Proof.Machine
end

