-- ==== Sys2Proof/Laws/Display.lean ====
section
/-! SUPPORT. What drawing does, said once: which cells a row and a whole sprite turn over, and when VF is set (43_display.md R212 to
R214). -/

namespace Sys2Proof.Machine

theorem cellIndex_lt (ox oy r c : Nat) : cellIndex 64 32 ox oy r c < 2048 := by
  simp only [cellIndex]; omega

/-- No cell is under two bits of one sprite (R214). -/
theorem cellIndex_injective {ox oy r c r' c' : Nat} (hr : r < 32) (hc : c < 64) (hr' : r' < 32) (hc' : c' < 64)
    (h : cellIndex 64 32 ox oy r c = cellIndex 64 32 ox oy r' c') : r = r' ∧ c = c' := by
  simp only [cellIndex] at h
  have hcol : (ox + c) % 64 = (ox + c') % 64 := by omega
  have hrow : (oy + r) % 32 = (oy + r') % 32 := by omega
  constructor <;> omega

/-- Two states one after the other that change only registers and cells. -/
theorem drawn_trans {s t u : State} (h : t = { s with v := t.v, fb := t.fb }) (h' : u = { t with v := u.v, fb := u.fb }) :
    u = { s with v := u.v, fb := u.fb } := by
  cases s; cases t; cases u
  simp only [State.mk.injEq] at h h' ⊢
  simp_all

theorem drawBit_state (j : Nat) (s : State) : drawBit j s = { s with v := (drawBit j s).v, fb := (drawBit j s).fb } := by
  unfold drawBit; split <;> rfl

theorem drawBit_cell {j : Nat} (k : Nat) (s : State) (hj : j < 2048) :
    (drawBit j s).cell k = (s.cell k != decide (k = j)) := by
  unfold drawBit; rw [State.cell_flipCell _ _ _ hj]; split <;> rfl

theorem drawBit_readV (j : Nat) (s : State) (r : Reg) :
    (drawBit j s).readV r = if r = s.cfg.flagReg ∧ s.cell j = true then 1 else s.readV r := by
  unfold drawBit
  rw [State.readV_flipCell]
  by_cases h : s.cell j = true <;> simp [h]

/-- One column of a row: the cell under it is turned over when its bit is set. -/
def drawColumn (w h ox oy r : Nat) (row : Byte) (c : Nat) (s : State) : State :=
  if row.getLsbD (7 - c) then drawBit (cellIndex w h ox oy r c) s else s

theorem drawColumn_state (w h ox oy r : Nat) (row : Byte) (c : Nat) (s : State) :
    drawColumn w h ox oy r row c s =
      { s with v := (drawColumn w h ox oy r row c s).v, fb := (drawColumn w h ox oy r row c s).fb } := by
  unfold drawColumn; split
  · exact drawBit_state _ _
  · rfl

@[simp] theorem drawColumn_cfg (w h ox oy r : Nat) (row : Byte) (c : Nat) (s : State) :
    (drawColumn w h ox oy r row c s).cfg = s.cfg := by rw [drawColumn_state]

theorem drawColumn_cell (ox oy r : Nat) (row : Byte) (c : Nat) (s : State) (j : Nat) :
    (drawColumn 64 32 ox oy r row c s).cell j = (s.cell j != (row.getLsbD (7 - c) && j == cellIndex 64 32 ox oy r c)) := by
  unfold drawColumn
  by_cases h : row.getLsbD (7 - c) = true
  · simp only [h, if_true, drawBit_cell _ _ (cellIndex_lt _ _ _ _), Bool.true_and]; rfl
  · simp [h]

theorem drawColumn_readV (w h ox oy r : Nat) (row : Byte) (c : Nat) (s : State) (q : Reg) :
    (drawColumn w h ox oy r row c s).readV q =
      if q == s.cfg.flagReg && (row.getLsbD (7 - c) && s.cell (cellIndex w h ox oy r c)) then 1 else s.readV q := by
  unfold drawColumn
  by_cases h : row.getLsbD (7 - c) = true
  · simp [h, drawBit_readV]
  · simp [h]

theorem drawRow_cons (w h ox oy r : Nat) (row : Byte) (c : Nat) (rest : List Nat) (s : State) :
    drawRow w h ox oy r row (c :: rest) s = drawRow w h ox oy r row rest (drawColumn w h ox oy r row c s) := rfl

/-- A set bit of the columns `cols` of a row lies over cell `j`. -/
def rowCovers (ox oy r : Nat) (row : Byte) (cols : List Nat) (j : Nat) : Bool :=
  cols.any fun c => row.getLsbD (7 - c) && j == cellIndex 64 32 ox oy r c

/-- A set bit of the columns `cols` of a row meets a cell that is on. -/
def rowCollides (ox oy r : Nat) (row : Byte) (cols : List Nat) (s : State) : Bool :=
  cols.any fun c => row.getLsbD (7 - c) && s.cell (cellIndex 64 32 ox oy r c)

/-- What the columns `cols` of one row do: each cell under a set bit is turned over; VF is set when one of them was on. -/
theorem drawRow_spec (ox oy r : Nat) (row : Byte) (cols : List Nat) (s : State) (hn : cols.Nodup) (h8 : ∀ c ∈ cols, c < 8)
    (hr : r < 32) :
    (∀ j, (drawRow 64 32 ox oy r row cols s).cell j = (s.cell j != rowCovers ox oy r row cols j)) ∧
    (∀ q, (drawRow 64 32 ox oy r row cols s).readV q =
      if q == s.cfg.flagReg && rowCollides ox oy r row cols s then 1 else s.readV q) := by
  induction cols generalizing s with
  | nil => exact ⟨by simp [drawRow, rowCovers], by simp [drawRow, rowCollides]⟩
  | cons c rest ih =>
    rw [List.nodup_cons] at hn
    have h8' : ∀ c ∈ rest, c < 8 := fun d hd => h8 d (by simp [hd])
    have hc : c < 8 := h8 c (by simp)
    have hother : ∀ d ∈ rest, cellIndex 64 32 ox oy r d ≠ cellIndex 64 32 ox oy r c := by
      intro d hd e
      have := (cellIndex_injective hr (by have := h8' d hd; omega) hr (by omega) e).2
      exact hn.1 (this ▸ hd)
    obtain ⟨hcell, hv⟩ := ih (drawColumn 64 32 ox oy r row c s) hn.2 h8'
    rw [drawRow_cons]
    constructor
    · intro j
      rw [hcell, drawColumn_cell]
      have hdis : j = cellIndex 64 32 ox oy r c → rowCovers ox oy r row rest j = false := by
        rintro rfl
        simp only [rowCovers, List.any_eq_false, Bool.and_eq_true, beq_iff_eq, not_and]
        exact fun d hd _ e => hother d hd e.symm
      have hcons : rowCovers ox oy r row (c :: rest) j =
          ((row.getLsbD (7 - c) && j == cellIndex 64 32 ox oy r c) || rowCovers ox oy r row rest j) := rfl
      rw [hcons]
      by_cases hj : j = cellIndex 64 32 ox oy r c
      · rw [hdis hj]; simp
      · have : (j == cellIndex 64 32 ox oy r c) = false := by simpa using hj
        simp [this]
    · intro q
      have hrest : rowCollides ox oy r row rest (drawColumn 64 32 ox oy r row c s) = rowCollides ox oy r row rest s := by
        simp only [rowCollides]
        rw [Bool.eq_iff_iff, List.any_eq_true, List.any_eq_true]
        have hne : ∀ d ∈ rest, (cellIndex 64 32 ox oy r d == cellIndex 64 32 ox oy r c) = false := fun d hd => by simpa using hother d hd
        constructor <;> rintro ⟨d, hd, h⟩ <;> refine ⟨d, hd, ?_⟩
        · simpa [drawColumn_cell, hne d hd] using h
        · simpa [drawColumn_cell, hne d hd] using h
      have hcons : rowCollides ox oy r row (c :: rest) s =
          ((row.getLsbD (7 - c) && s.cell (cellIndex 64 32 ox oy r c)) || rowCollides ox oy r row rest s) := rfl
      rw [hv, hrest, drawColumn_readV, hcons]
      by_cases hq : q = s.cfg.flagReg
      · cases h1 : (row.getLsbD (7 - c) && s.cell (cellIndex 64 32 ox oy r c)) <;>
          cases h2 : rowCollides ox oy r row rest s <;> simp [hq]
      · have : (q == s.cfg.flagReg) = false := by simpa using hq
        simp [this]

theorem drawRow_state (w h ox oy r : Nat) (row : Byte) (cols : List Nat) (s : State) :
    drawRow w h ox oy r row cols s =
      { s with v := (drawRow w h ox oy r row cols s).v, fb := (drawRow w h ox oy r row cols s).fb } := by
  induction cols generalizing s with
  | nil => rfl
  | cons c rest ih =>
    exact drawn_trans (drawColumn_state w h ox oy r row c s) (ih _)

/-- The bit a sprite at `I` puts under row `r`, column `c`. -/
def State.rowBit (s : State) (r c : Nat) : Bool := (s.mem.read (s.i.toNat + r)).getLsbD (7 - c)

/-- A set bit of the rows `rows` of a sprite lies over cell `j`. -/
def State.spriteCovers (s : State) (ox oy : Nat) (rows : List Nat) (j : Nat) : Bool :=
  rows.any fun r => rowCovers ox oy r (s.mem.read (s.i.toNat + r)) (List.range 8) j

/-- A set bit of the rows `rows` of a sprite meets a cell that is on. -/
def State.spriteCollides (s : State) (ox oy : Nat) (rows : List Nat) : Bool :=
  rows.any fun r => rowCollides ox oy r (s.mem.read (s.i.toNat + r)) (List.range 8) s

theorem State.spriteCovers_iff (s : State) (ox oy : Nat) (rows : List Nat) (j : Nat) :
    s.spriteCovers ox oy rows j = true ↔ ∃ r ∈ rows, ∃ c < 8, s.rowBit r c = true ∧ j = cellIndex 64 32 ox oy r c := by
  simp only [State.spriteCovers, rowCovers, State.rowBit, List.any_eq_true, List.mem_range, Bool.and_eq_true, beq_iff_eq]

theorem State.spriteCollides_iff (s : State) (ox oy : Nat) (rows : List Nat) :
    s.spriteCollides ox oy rows = true ↔
      ∃ r ∈ rows, ∃ c < 8, s.rowBit r c = true ∧ s.cell (cellIndex 64 32 ox oy r c) = true := by
  simp only [State.spriteCollides, rowCollides, State.rowBit, List.any_eq_true, List.mem_range, Bool.and_eq_true]

theorem drawRows_append (w h ox oy : Nat) (a b : List Nat) (s : State) :
    drawRows w h ox oy (a ++ b) s = (drawRows w h ox oy a s).andThen fun _ t => drawRows w h ox oy b t := by
  induction a generalizing s with
  | nil => rfl
  | cons r rest ih =>
    rw [List.cons_append, drawRows, drawRows]
    cases memRead (s.transferAddress r) s with
    | ok u t => simp only [Attempt.andThen_ok, ih]
    | raised k t => rfl

/-- What the rows `rows` of a sprite do when all of them are backed. -/
theorem drawRows_ok (ox oy : Nat) (rows : List Nat) (s : State) (hn : rows.Nodup) (h32 : ∀ r ∈ rows, r < 32)
    (hb : ∀ r ∈ rows, s.i.toNat + r < s.cfg.memSize) :
    ∃ t, drawRows 64 32 ox oy rows s = .ok () t ∧ t = { s with v := t.v, fb := t.fb } ∧
      (∀ j, t.cell j = (s.cell j != s.spriteCovers ox oy rows j)) ∧
      (∀ q, t.readV q = if q == s.cfg.flagReg && s.spriteCollides ox oy rows then 1 else s.readV q) := by
  induction rows generalizing s with
  | nil => exact ⟨s, rfl, rfl, by simp [State.spriteCovers], by simp [State.spriteCollides]⟩
  | cons r rest ih =>
    rw [List.nodup_cons] at hn
    have hr : r < 32 := h32 r (by simp)
    obtain ⟨hucell, huv⟩ := drawRow_spec ox oy r (s.mem.read (s.i.toNat + r)) (List.range 8) s
      List.nodup_range (by simp) hr
    have hus := drawRow_state 64 32 ox oy r (s.mem.read (s.i.toNat + r)) (List.range 8) s
    generalize hu : drawRow 64 32 ox oy r (s.mem.read (s.i.toNat + r)) (List.range 8) s = u at hus hucell huv
    have hui : u.i = s.i := by rw [hus]
    have hum : u.mem = s.mem := by rw [hus]
    have huc : u.cfg = s.cfg := by rw [hus]
    obtain ⟨t, ht, hts, hcell, hv⟩ := ih u hn.2 (fun q hq => h32 q (by simp [hq]))
      (fun q hq => by rw [hui, huc]; exact hb q (by simp [hq]))
    have hother : ∀ q ∈ rest, ∀ c < 8, ∀ d < 8, cellIndex 64 32 ox oy q c ≠ cellIndex 64 32 ox oy r d := by
      intro q hq c hc d hd e
      exact hn.1 ((cellIndex_injective (h32 q (by simp [hq])) (by omega) hr (by omega) e).1 ▸ hq)
    have hdis : ∀ j, rowCovers ox oy r (s.mem.read (s.i.toNat + r)) (List.range 8) j = true →
        s.spriteCovers ox oy rest j = false := by
      intro j hj
      rw [Bool.eq_false_iff, Ne, State.spriteCovers_iff]
      simp only [rowCovers, List.any_eq_true, List.mem_range, Bool.and_eq_true, beq_iff_eq] at hj
      rintro ⟨q, hq, c, hc, -, e⟩
      obtain ⟨d, hd, -, e'⟩ := hj
      exact hother q hq c hc d hd (e ▸ e')
    refine ⟨t, ?_, ?_, ?_, ?_⟩
    · have ha : s.transferAddress r < s.cfg.memSize := hb r (by simp)
      rw [drawRows, memRead_ok ha, Attempt.andThen_ok]
      show drawRows 64 32 ox oy rest (drawRow 64 32 ox oy r (s.mem.read (s.i.toNat + r)) (List.range 8) s) = _
      rw [hu, ht]
    · exact drawn_trans hus hts
    · intro j
      have h1 : u.spriteCovers ox oy rest j = s.spriteCovers ox oy rest j := by
        simp only [State.spriteCovers, hui, hum]
      have h2 : s.spriteCovers ox oy (r :: rest) j =
        (rowCovers ox oy r (s.mem.read (s.i.toNat + r)) (List.range 8) j || s.spriteCovers ox oy rest j) := rfl
      rw [hcell, hucell, h1, h2]
      cases h3 : rowCovers ox oy r (s.mem.read (s.i.toNat + r)) (List.range 8) j
      · simp
      · rw [hdis j h3]; simp
    · intro q
      have h1 : u.spriteCollides ox oy rest = s.spriteCollides ox oy rest := by
        have hsame : ∀ p ∈ rest, ∀ c < 8, u.cell (cellIndex 64 32 ox oy p c) = s.cell (cellIndex 64 32 ox oy p c) := by
          intro p hp c hc
          have hno : rowCovers ox oy r (s.mem.read (s.i.toNat + r)) (List.range 8) (cellIndex 64 32 ox oy p c) = false := by
            simp only [rowCovers, List.any_eq_false, List.mem_range, Bool.and_eq_true, beq_iff_eq, not_and]
            exact fun d hd _ e => hother p hp c hc d hd e
          rw [hucell, hno]; simp
        rw [Bool.eq_iff_iff, State.spriteCollides_iff, State.spriteCollides_iff]
        have hbit : ∀ p c, u.rowBit p c = s.rowBit p c := fun p c => by simp only [State.rowBit, hui, hum]
        constructor <;> rintro ⟨p, hp, c, hc, h1, h2⟩ <;> refine ⟨p, hp, c, hc, ?_, ?_⟩
        · rwa [hbit] at h1
        · rwa [hsame p hp c hc] at h2
        · rwa [hbit]
        · rwa [hsame p hp c hc]
      have h2 : s.spriteCollides ox oy (r :: rest) =
        (rowCollides ox oy r (s.mem.read (s.i.toNat + r)) (List.range 8) s || s.spriteCollides ox oy rest) := rfl
      rw [hv, huv, huc, h1, h2]
      by_cases hq : q = s.cfg.flagReg
      · cases rowCollides ox oy r (s.mem.read (s.i.toNat + r)) (List.range 8) s <;>
          cases s.spriteCollides ox oy rest <;> simp [hq]
      · have : (q == s.cfg.flagReg) = false := by simpa using hq
        simp [this]

/-- A sprite that reaches an unbacked row raises MEM_RANGE there, the rows before it composed (R212, R260). -/
theorem drawRows_raised (w h ox oy n : Nat) (s t : State) (hn : s.cfg.memSize < s.i.toNat + n) (h0 : 0 < n)
    (hi : t.i = s.i) (hc : t.cfg = s.cfg)
    (ht : drawRows w h ox oy (List.range (s.cfg.memSize - s.i.toNat)) s = .ok () t) :
    drawRows w h ox oy (List.range n) s = .raised .memRange t := by
  obtain ⟨k, hk⟩ : ∃ k, n = (s.cfg.memSize - s.i.toNat) + (k + 1) := ⟨n - (s.cfg.memSize - s.i.toNat) - 1, by omega⟩
  have hsplit : List.range n = List.range (s.cfg.memSize - s.i.toNat) ++
      (List.range (k + 1)).map (s.cfg.memSize - s.i.toNat + ·) := by
    rw [hk, List.range_add]
  rw [hsplit, drawRows_append, ht, Attempt.andThen_ok, List.range_succ_eq_map, List.map_cons, drawRows, memRead_raised,
    Attempt.andThen_raised]
  simp only [State.transferAddress, hi, hc]
  omega

/-- A row leaves every register but VF as it was. -/
theorem drawRow_readV_other (w h ox oy r : Nat) (row : Byte) (cols : List Nat) (s : State) (q : Reg) (hq : q ≠ s.cfg.flagReg) :
    (drawRow w h ox oy r row cols s).readV q = s.readV q := by
  induction cols generalizing s with
  | nil => rfl
  | cons c rest ih =>
    have h : (q == s.cfg.flagReg) = false := by simpa using hq
    rw [drawRow_cons, ih _ (by simpa using hq), drawColumn_readV, h]
    simp

/-- Drawing ends with nothing changed but VF and the framebuffer. -/
theorem drawRows_cases (w h ox oy : Nat) (rows : List Nat) (s : State) :
    ∃ t : State, t = { s with v := t.v, fb := t.fb } ∧
      (drawRows w h ox oy rows s = .ok () t ∨ drawRows w h ox oy rows s = .raised .memRange t) ∧
      (∀ r : Reg, r ≠ s.cfg.flagReg → t.readV r = s.readV r) := by
  induction rows generalizing s with
  | nil => exact ⟨s, rfl, .inl rfl, fun _ _ => rfl⟩
  | cons r rest ih =>
    rw [drawRows]
    by_cases ha : s.transferAddress r < s.cfg.memSize
    · rw [memRead_ok ha, Attempt.andThen_ok]
      have hs := drawRow_state w h ox oy r (s.mem.read (s.transferAddress r)) (List.range 8) s
      have hv := fun q hq => drawRow_readV_other w h ox oy r (s.mem.read (s.transferAddress r)) (List.range 8) s q hq
      generalize drawRow w h ox oy r (s.mem.read (s.transferAddress r)) (List.range 8) s = u at hs hv
      obtain ⟨t, ht, hcase, hvt⟩ := ih u
      exact ⟨t, drawn_trans hs ht, hcase, fun q hq => (hvt q (by rwa [hs])).trans (hv q hq)⟩
    · rw [memRead_raised (Nat.not_lt.1 ha), Attempt.andThen_raised]
      exact ⟨s, rfl, .inr rfl, fun _ _ => rfl⟩

end Sys2Proof.Machine
end

