-- ==== Sys2Proof/Laws/Exec.lean ====
section
/-! SUPPORT. Everything each instruction that can raise a fatal condition may come to, said once: its successful end, or the state it
stops in. The other instructions' ends are their definitions, by rfl. -/

namespace Sys2Proof.Machine

/-- Every end of a pop (R59). -/
theorem pop_cases (s : State) :
    (∃ u, pop s = .ok u { s with sp := s.sp + 2 } ∧ s.sp.toNat + 2 ≤ s.cfg.stackTop ∧ s.sp.toNat + 1 < s.cfg.memSize) ∨
    (pop s = .raised .stackUnderflow s ∧ s.cfg.stackTop < s.sp.toNat + 2) ∨
    (pop s = .raised .memRange s ∧ s.sp.toNat + 2 ≤ s.cfg.stackTop ∧ s.cfg.memSize ≤ s.sp.toNat + 1) := by
  by_cases h : s.cfg.stackTop < s.sp.toNat + 2
  · exact .inr (.inl ⟨pop_underflow h, h⟩)
  by_cases hm : s.sp.toNat + 1 < s.cfg.memSize
  · exact .inl ⟨_, pop_ok (by omega) hm, by omega, hm⟩
  · refine .inr (.inr ⟨?_, by omega, by omega⟩)
    simp only [pop, peek, h, if_false, readWord_raised (Nat.not_lt.1 hm), Attempt.andThen_raised]

/-- Every end of a push (R58): memory stays canonical and inside the backed bytes. -/
theorem push_cases (u : Word) (s : State) :
    (push u s = .raised .stackOverflow s ∧ s.sp.toNat < s.cfg.stackLow + 2) ∨
    (s.cfg.stackLow + 2 ≤ s.sp.toNat ∧ ∃ m : Memory,
      (push u s = .ok () { s with sp := s.sp - 2, mem := m } ∨
        (push u s = .raised .memRange { s with sp := s.sp - 2, mem := m } ∧ s.cfg.memSize < s.sp.toNat)) ∧
      (s.mem.wf → m.wf) ∧ ((∀ c ∈ s.mem, c.1 < s.cfg.memSize) → ∀ c ∈ m, c.1 < s.cfg.memSize)) := by
  by_cases h : s.sp.toNat < s.cfg.stackLow + 2
  · exact .inl ⟨push_overflow h, h⟩
  refine .inr ⟨by omega, ?_⟩
  simp only [push, h, if_false]
  obtain ⟨m, hm, hw⟩ := storeBytes_cases [highByte u, lowByte u] (s.sp - 2).toNat { s with sp := s.sp - 2 }
  refine ⟨m, ?_, hw⟩
  rcases hm with hm | hm
  · exact .inl hm
  · refine .inr ⟨hm, ?_⟩
    by_contra hc
    have hsp : (s.sp - 2).toNat = s.sp.toNat - 2 := by
      rw [BitVec.toNat_sub_of_le] <;> simp [BitVec.le_def]; omega
    rw [storeBytes_ok] at hm
    · cases hm
    · intro k hk
      simp only [List.length_cons, List.length_nil] at hk
      rw [hsp]; show _ < s.cfg.memSize; omega

/-- Every end of RET (R111). -/
theorem execRet_cases (s : State) :
    (∃ u, execRet s = .next { s with pc := u, sp := s.sp + 2 } ∧ s.sp.toNat + 2 ≤ s.cfg.stackTop) ∨
    (execRet s = .next (s.enterFatal .stackUnderflow) ∧ s.cfg.stackTop < s.sp.toNat + 2) ∨
    (execRet s = .next (s.enterFatal .memRange) ∧ s.sp.toNat + 2 ≤ s.cfg.stackTop ∧ s.cfg.memSize ≤ s.sp.toNat + 1) := by
  unfold execRet
  rcases pop_cases s with ⟨u, h, h2, -⟩ | ⟨h, h2⟩ | ⟨h, h2⟩ <;> rw [h]
  · exact .inl ⟨u, rfl, h2⟩
  · exact .inr (.inl ⟨rfl, h2⟩)
  · exact .inr (.inr ⟨rfl, h2⟩)

/-- Every end of CALL (R113): memory stays canonical and inside the backed bytes. -/
theorem execCall_cases (nnn : Imm12) (s : State) :
    (execCall nnn s = .next (s.enterFatal .stackOverflow) ∧ s.sp.toNat < s.cfg.stackLow + 2) ∨
    (s.cfg.stackLow + 2 ≤ s.sp.toNat ∧ ∃ m : Memory,
      (execCall nnn s = .next { s with pc := zextAddress nnn, sp := s.sp - 2, mem := m } ∨
        (execCall nnn s = .next { s with sp := s.sp - 2, mem := m, run := .fatal .memRange } ∧
          s.cfg.memSize < s.sp.toNat)) ∧
      (s.mem.wf → m.wf) ∧ ((∀ c ∈ s.mem, c.1 < s.cfg.memSize) → ∀ c ∈ m, c.1 < s.cfg.memSize)) := by
  unfold execCall
  rcases push_cases s.pc s with ⟨h, h2⟩ | ⟨h2, m, h, hw⟩
  · rw [h]; exact .inl ⟨rfl, h2⟩
  · refine .inr ⟨h2, m, ?_, hw⟩
    rcases h with h | ⟨h, h3⟩ <;> rw [h]
    · exact .inl rfl
    · exact .inr ⟨rfl, h3⟩

/-- Every end of a store (R183, R184): only memory changes, which stays canonical and inside the backed bytes. -/
theorem storeBytes_finish_cases (a : Nat) (bytes : List Byte) (s : State) :
    ∃ m : Memory, ((storeBytes a bytes s).finish = .next { s with mem := m } ∨
        (storeBytes a bytes s).finish = .next { s with mem := m, run := .fatal .memRange }) ∧
      (s.mem.wf → m.wf) ∧ ((∀ c ∈ s.mem, c.1 < s.cfg.memSize) → ∀ c ∈ m, c.1 < s.cfg.memSize) := by
  obtain ⟨m, h, hw⟩ := storeBytes_cases bytes a s
  refine ⟨m, ?_, hw⟩
  rcases h with h | h <;> rw [h]
  · exact .inl rfl
  · exact .inr rfl

/-- Every end of LD Vx, [I] (R185): only `V[0]..V[x]` change. -/
theorem execLoad_cases (x : Reg) (s : State) :
    ∃ t : State, t = { s with v := t.v } ∧
      (execLoad x s = .next t ∨ execLoad x s = .next (t.enterFatal .memRange)) ∧
      ∀ r : Reg, ¬ r ≤ x → t.readV r = s.readV r := by
  obtain ⟨t, ht, hl, -, ho⟩ := loadRegs_spec (regsUpTo x) (s.transferAddress 0) s (regsUpTo_nodup x)
  refine ⟨t, ht, ?_, fun r hr => ho r (by rwa [mem_regsUpTo])⟩
  simp only [execLoad, hl]
  split
  · exact .inl rfl
  · exact .inr rfl

/-- Every end of DRW (R212): only VF and the framebuffer change. -/
theorem execDrw_cases (x y : Reg) (n : Nibble) (s : State) :
    ∃ t : State, t = { s with v := t.v, fb := t.fb } ∧
      (execDrw x y n s = .next t ∨ execDrw x y n s = .next (t.enterFatal .memRange)) ∧
      ∀ r : Reg, r ≠ s.cfg.flagReg → t.readV r = s.readV r := by
  obtain ⟨t, ht, hc, hv⟩ :=
    drawRows_cases s.cfg.fbW s.cfg.fbH (s.originX x) (s.originY y) (List.range n.toNat) (s.writeV s.cfg.flagReg 0)
  refine ⟨t, drawn_trans (s := s) (t := s.writeV s.cfg.flagReg 0) rfl ht, ?_, fun r hr => ?_⟩
  · rcases hc with hc | hc
    · left; simp only [execDrw, hc, Attempt.finish_ok]
    · right; simp only [execDrw, hc, Attempt.finish_raised]
  · rw [hv r hr, State.readV_writeV, if_neg (show ¬ r = s.cfg.flagReg from hr)]

/-- Every end of a key skip (R230, R231). -/
theorem skipOnKey_finish (x : Reg) (wanted : Bool) (s : State) :
    (skipOnKey x wanted s).finish = .next (if s.cfg.numKeys ≤ (s.readV x).toNat then s.enterFatal .keyIndex
      else s.skipIf (s.keys.getLsbD (s.readV x).toNat == wanted)) := by
  unfold skipOnKey
  simp only
  split <;> rfl

/-- A result and a flag change general registers only (R140). -/
theorem State.writeResultAndFlag_eq (s : State) (x : Reg) (u : Byte) (f : Bool) :
    s.writeResultAndFlag x u f = { s with v := (s.writeResultAndFlag x u f).v } := by
  unfold State.writeResultAndFlag; cases s.cfg.flagOrder <;> rfl

end Sys2Proof.Machine
end

