-- ==== Sys2Proof/Laws/PerInstr.lean ====
section
/-! SUPPORT. The family FixedBits, a fact about every instruction as syntax: its word carries the fixed bits its row of
spec/opcode_table.json gives (R82, R100). -/

namespace Sys2Proof.Laws

open Sys2Proof

/-- The mask and the fixed bits of an instruction's row of the table. -/
def tableRow (i : Instr) : OpRow :=
  match i with
  | .cls => ⟨0xFFFF, 0x00E0⟩
  | .ret => ⟨0xFFFF, 0x00EE⟩
  | .jp _ => ⟨0xF000, 0x1000⟩
  | .call _ => ⟨0xF000, 0x2000⟩
  | .seKk _ _ => ⟨0xF000, 0x3000⟩
  | .sneKk _ _ => ⟨0xF000, 0x4000⟩
  | .seVy _ _ => ⟨0xF00F, 0x5000⟩
  | .ldKk _ _ => ⟨0xF000, 0x6000⟩
  | .addKk _ _ => ⟨0xF000, 0x7000⟩
  | .ldVy _ _ => ⟨0xF00F, 0x8000⟩
  | .orVy _ _ => ⟨0xF00F, 0x8001⟩
  | .andVy _ _ => ⟨0xF00F, 0x8002⟩
  | .xorVy _ _ => ⟨0xF00F, 0x8003⟩
  | .addVy _ _ => ⟨0xF00F, 0x8004⟩
  | .subVy _ _ => ⟨0xF00F, 0x8005⟩
  | .shr _ _ => ⟨0xF00F, 0x8006⟩
  | .subnVy _ _ => ⟨0xF00F, 0x8007⟩
  | .shl _ _ => ⟨0xF00F, 0x800E⟩
  | .sneVy _ _ => ⟨0xF00F, 0x9000⟩
  | .ldI _ => ⟨0xF000, 0xA000⟩
  | .jpV0 _ => ⟨0xF000, 0xB000⟩
  | .rnd _ _ => ⟨0xF000, 0xC000⟩
  | .drw _ _ _ => ⟨0xF000, 0xD000⟩
  | .skp _ => ⟨0xF0FF, 0xE09E⟩
  | .sknp _ => ⟨0xF0FF, 0xE0A1⟩
  | .ldVxDt _ => ⟨0xF0FF, 0xF007⟩
  | .ldVxK _ => ⟨0xF0FF, 0xF00A⟩
  | .ldDtVx _ => ⟨0xF0FF, 0xF015⟩
  | .ldStVx _ => ⟨0xF0FF, 0xF018⟩
  | .addI _ => ⟨0xF0FF, 0xF01E⟩
  | .ldF _ => ⟨0xF0FF, 0xF029⟩
  | .ldB _ => ⟨0xF0FF, 0xF033⟩
  | .dump _ => ⟨0xF0FF, 0xF055⟩
  | .load _ => ⟨0xF0FF, 0xF065⟩
  | .unknown _ => ⟨0x0000, 0x0000⟩

/-! ### The five shapes of a packed word -/

theorem packNnn_fits (op : Nibble) (nnn : Imm12) : (OpRow.mk 0xF000 (packNnn op 0)).fits (packNnn op nnn) = true := by
  simp only [OpRow.fits, beq_iff_eq]
  apply BitVec.eq_of_getLsbD_eq
  intro i hi
  simp only [packNnn, BitVec.getLsbD_and, BitVec.getLsbD_append]
  interval_cases i <;> simp

theorem packXkk_fits (op : Nibble) (x : Reg) (kk : Byte) :
    (OpRow.mk 0xF000 (packXkk op 0 0)).fits (packXkk op x kk) = true := by
  simp only [OpRow.fits, beq_iff_eq]
  apply BitVec.eq_of_getLsbD_eq
  intro i hi
  simp only [packXkk, BitVec.getLsbD_and, BitVec.getLsbD_append]
  interval_cases i <;> simp [nibbleOfReg]

theorem packXss_fits (op : Nibble) (x : Reg) (kk : Byte) :
    (OpRow.mk 0xF0FF (packXkk op 0 kk)).fits (packXkk op x kk) = true := by
  simp only [OpRow.fits, beq_iff_eq]
  apply BitVec.eq_of_getLsbD_eq
  intro i hi
  simp only [packXkk, BitVec.getLsbD_and, BitVec.getLsbD_append]
  interval_cases i <;> simp [nibbleOfReg]

theorem packXys_fits (op n : Nibble) (x y : Reg) :
    (OpRow.mk 0xF00F (packXyn op 0 0 n)).fits (packXyn op x y n) = true := by
  simp only [OpRow.fits, beq_iff_eq]
  apply BitVec.eq_of_getLsbD_eq
  intro i hi
  simp only [packXyn, BitVec.getLsbD_and, BitVec.getLsbD_append]
  interval_cases i <;> simp [nibbleOfReg]

theorem packXyn_fits (op n : Nibble) (x y : Reg) :
    (OpRow.mk 0xF000 (packXyn op 0 0 0)).fits (packXyn op x y n) = true := by
  simp only [OpRow.fits, beq_iff_eq]
  apply BitVec.eq_of_getLsbD_eq
  intro i hi
  simp only [packXyn, BitVec.getLsbD_and, BitVec.getLsbD_append]
  interval_cases i <;> simp [nibbleOfReg]

/-- The word of the instruction carries its row's fixed bits. -/
def FixedBits.Statement (i : Instr) : Prop := (tableRow i).fits (encode i) = true

/-! ### One lemma per constructor -/

theorem FixedBits.cls : FixedBits.Statement .cls := rfl
theorem FixedBits.ret : FixedBits.Statement .ret := rfl
theorem FixedBits.jp (nnn : Imm12) : FixedBits.Statement (.jp nnn) := packNnn_fits 0x1 nnn
theorem FixedBits.call (nnn : Imm12) : FixedBits.Statement (.call nnn) := packNnn_fits 0x2 nnn
theorem FixedBits.seKk (x : Reg) (kk : Byte) : FixedBits.Statement (.seKk x kk) := packXkk_fits 0x3 x kk
theorem FixedBits.sneKk (x : Reg) (kk : Byte) : FixedBits.Statement (.sneKk x kk) := packXkk_fits 0x4 x kk
theorem FixedBits.seVy (x : Reg) (y : Reg) : FixedBits.Statement (.seVy x y) := packXys_fits 0x5 0x0 x y
theorem FixedBits.ldKk (x : Reg) (kk : Byte) : FixedBits.Statement (.ldKk x kk) := packXkk_fits 0x6 x kk
theorem FixedBits.addKk (x : Reg) (kk : Byte) : FixedBits.Statement (.addKk x kk) := packXkk_fits 0x7 x kk
theorem FixedBits.ldVy (x : Reg) (y : Reg) : FixedBits.Statement (.ldVy x y) := packXys_fits 0x8 0x0 x y
theorem FixedBits.orVy (x : Reg) (y : Reg) : FixedBits.Statement (.orVy x y) := packXys_fits 0x8 0x1 x y
theorem FixedBits.andVy (x : Reg) (y : Reg) : FixedBits.Statement (.andVy x y) := packXys_fits 0x8 0x2 x y
theorem FixedBits.xorVy (x : Reg) (y : Reg) : FixedBits.Statement (.xorVy x y) := packXys_fits 0x8 0x3 x y
theorem FixedBits.addVy (x : Reg) (y : Reg) : FixedBits.Statement (.addVy x y) := packXys_fits 0x8 0x4 x y
theorem FixedBits.subVy (x : Reg) (y : Reg) : FixedBits.Statement (.subVy x y) := packXys_fits 0x8 0x5 x y
theorem FixedBits.shr (x : Reg) (y : Reg) : FixedBits.Statement (.shr x y) := packXys_fits 0x8 0x6 x y
theorem FixedBits.subnVy (x : Reg) (y : Reg) : FixedBits.Statement (.subnVy x y) := packXys_fits 0x8 0x7 x y
theorem FixedBits.shl (x : Reg) (y : Reg) : FixedBits.Statement (.shl x y) := packXys_fits 0x8 0xE x y
theorem FixedBits.sneVy (x : Reg) (y : Reg) : FixedBits.Statement (.sneVy x y) := packXys_fits 0x9 0x0 x y
theorem FixedBits.ldI (nnn : Imm12) : FixedBits.Statement (.ldI nnn) := packNnn_fits 0xA nnn
theorem FixedBits.jpV0 (nnn : Imm12) : FixedBits.Statement (.jpV0 nnn) := packNnn_fits 0xB nnn
theorem FixedBits.rnd (x : Reg) (kk : Byte) : FixedBits.Statement (.rnd x kk) := packXkk_fits 0xC x kk
theorem FixedBits.drw (x : Reg) (y : Reg) (n : Nibble) : FixedBits.Statement (.drw x y n) := packXyn_fits 0xD n x y
theorem FixedBits.skp (x : Reg) : FixedBits.Statement (.skp x) := packXss_fits 0xE x 0x9E
theorem FixedBits.sknp (x : Reg) : FixedBits.Statement (.sknp x) := packXss_fits 0xE x 0xA1
theorem FixedBits.ldVxDt (x : Reg) : FixedBits.Statement (.ldVxDt x) := packXss_fits 0xF x 0x07
theorem FixedBits.ldVxK (x : Reg) : FixedBits.Statement (.ldVxK x) := packXss_fits 0xF x 0x0A
theorem FixedBits.ldDtVx (x : Reg) : FixedBits.Statement (.ldDtVx x) := packXss_fits 0xF x 0x15
theorem FixedBits.ldStVx (x : Reg) : FixedBits.Statement (.ldStVx x) := packXss_fits 0xF x 0x18
theorem FixedBits.addI (x : Reg) : FixedBits.Statement (.addI x) := packXss_fits 0xF x 0x1E
theorem FixedBits.ldF (x : Reg) : FixedBits.Statement (.ldF x) := packXss_fits 0xF x 0x29
theorem FixedBits.ldB (x : Reg) : FixedBits.Statement (.ldB x) := packXss_fits 0xF x 0x33
theorem FixedBits.dump (x : Reg) : FixedBits.Statement (.dump x) := packXss_fits 0xF x 0x55
theorem FixedBits.load (x : Reg) : FixedBits.Statement (.load x) := packXss_fits 0xF x 0x65
theorem FixedBits.unknown (w : Word) : FixedBits.Statement (.unknown w) := by
  simp [FixedBits.Statement, tableRow, OpRow.fits, encode]

end Sys2Proof.Laws
end

