-- ==== Sys2Proof/Laws/Scheduler.lean ====
section
/-! SUPPORT. The timer, the scheduler's events field by field, and that an instruction commutes with a
change of the scheduler's own fields: it reads none of them, and writes only `TIMER_ACC`, to 0, where it stops or starts the timer. -/

namespace Sys2Proof.Machine

/-! ### The timer (R270) -/

/-- What the decay loop comes to: one decrement for each full period, as far as `dt` goes. -/
theorem decay_spec (tTimer dt acc : Nat) (h : 0 < tTimer) :
    decay tTimer dt acc = (dt - acc / tTimer, acc - tTimer * min dt (acc / tTimer)) := by
  induction dt generalizing acc with
  | zero => simp [decay]
  | succ d ih =>
    unfold decay
    split
    · next hle =>
      rw [ih]
      obtain ⟨b, rfl⟩ := Nat.exists_eq_add_of_le hle
      have h1 : (tTimer + b) / tTimer = b / tTimer + 1 := by rw [Nat.add_comm, Nat.add_div_right _ h]
      rw [h1, Nat.add_sub_cancel_left]
      refine Prod.ext (by simp) ?_
      simp only [Nat.add_min_add_right, Nat.mul_add]
      omega
    · next hle =>
      have : acc / tTimer = 0 := Nat.div_eq_of_lt (by omega)
      simp [this]

theorem decay_le (tTimer dt acc : Nat) : (decay tTimer dt acc).1 ≤ dt := by
  induction dt generalizing acc with
  | zero => simp [decay]
  | succ d ih =>
    unfold decay
    split
    · exact (ih _).trans (Nat.le_succ _)
    · exact le_rfl

/-- The timer update changes `DT` and `TIMER_ACC` only. -/
theorem timerUpdate_eq (elapsed : Nat) (s : State) :
    timerUpdate elapsed s =
      { s with dt := (timerUpdate elapsed s).dt, timerAcc := (timerUpdate elapsed s).timerAcc } := rfl

/-- After a timer update no time is accumulated for a stopped timer (R271). -/
theorem timerUpdate_held (elapsed : Nat) (s : State) (h : (timerUpdate elapsed s).dt = 0) :
    (timerUpdate elapsed s).timerAcc = 0 := by
  have hle := decay_le s.cfg.tTimer s.dt.toNat (s.timerAcc + elapsed)
  have hlt := s.dt.isLt
  have h0 : BitVec.ofNat 8 (decay s.cfg.tTimer s.dt.toNat (s.timerAcc + elapsed)).1 = 0 := h
  rw [← BitVec.toNat_inj, BitVec.toNat_ofNat, Nat.mod_eq_of_lt (by omega)] at h0
  exact if_pos h0

/-! ### The events of the scheduler -/

/-- A batch goes on only from RUNNING. -/
theorem run_of_batchGoes {s : State} (h : batchGoes s = true) : s.run = .running := by
  simp only [batchGoes, Bool.and_eq_true, beq_iff_eq] at h; exact h.1

@[simp] theorem isFatal_deduct (s : State) : (deduct s).isFatal = s.isFatal := rfl

@[simp] theorem isFatal_timerUpdate (elapsed : Nat) (s : State) : (timerUpdate elapsed s).isFatal = s.isFatal := rfl

@[simp] theorem isFatal_discardIfHalted (s : State) : (discardIfHalted s).isFatal = s.isFatal := by
  unfold discardIfHalted; split <;> rfl

/-- Discarding the budget changes `CYCLE_ACC` only. -/
theorem discardIfHalted_eq (s : State) : discardIfHalted s = { s with cycleAcc := (discardIfHalted s).cycleAcc } := by
  unfold discardIfHalted; split <;> rfl

/-- Closing a tick after a fatal condition changes the record of the tick only. -/
theorem closeIfFatal_eq (s : State) : closeIfFatal s = { s with batch := (closeIfFatal s).batch } := by
  unfold closeIfFatal; split <;> rfl

/-- The resume changes general registers and `RUN` only. -/
theorem resumeIfKey_eq (s : State) : s.resumeIfKey = { s with v := s.resumeIfKey.v, run := s.resumeIfKey.run } := by
  unfold State.resumeIfKey; split <;> rfl

/-- With no key pressed the resume does nothing. -/
theorem resumeIfKey_none {s : State} (h : s.keys = 0) : s.resumeIfKey = s := by
  unfold State.resumeIfKey; rw [(lowestPressed_none _).2 h]

/-- A core that has not aborted makes a live step. -/
theorem step_live {s : State} (h : s.isFatal = false) : step s = liveStep s := by
  unfold step machineStep
  unfold State.isFatal at h
  split <;> simp_all

/-- Running RUNNING, between ticks and with no input, a step is one instruction step. -/
theorem step_free {s : State} (hr : s.run = .running) (hb : s.batch = none) (hi : s.inputs = []) :
    step s = instrStep s := by
  simp [step, machineStep, liveStep, freeStep, hr, hb, hi]

/-- A batch whose guard fails is over. -/
theorem batchLoop_stop {n : Nat} {s : State} (h : batchGoes s = false) : batchLoop n s = .next s := by
  cases n <;> simp [batchLoop, h]

/-! ### Runs -/

theorem Core_run_succ (M : Host.Core) (n : Nat) (s : M.State) :
    M.run (n + 1) s = match M.step s with
      | .next t    => M.run n t
      | .fault f   => .fault f
      | .refused r => .refused r := rfl

/-- `steps` is the host's run of the core. -/
theorem steps_eq_run (n : Nat) (s : State) : steps n s = Sys2Proof.core.run n s := by
  induction n generalizing s with
  | zero => rfl
  | succ n ih =>
    refine Eq.trans ?_ (Core_run_succ Sys2Proof.core n s).symm
    have e : Sys2Proof.core.step s = step s := rfl
    rw [e, steps]
    cases step s with
    | next t => exact ih t
    | fault f => rfl
    | refused r => rfl

theorem steps_one {s t : State} (h : step s = .next t) : steps 1 s = .next t := by
  show (match step s with | .next t => steps 0 t | .fault f => .fault f | .refused r => .refused r) = _
  rw [h]; rfl

theorem steps_add (k l : Nat) (s t : State) (h : steps k s = .next t) : steps (k + l) s = steps l t := by
  induction k generalizing s with
  | zero => injection h with h; subst h; rw [Nat.zero_add]
  | succ k ih =>
    rw [show k + 1 + l = (k + l) + 1 by omega]
    unfold steps at h
    split at h
    · next u hu =>
      show (match step s with
        | .next t => steps (k + l) t | .fault f => .fault f | .refused r => .refused r) = _
      rw [hu]; exact ih u h
    · cases h
    · cases h

/-! ### Instructions and the scheduler's fields (R37, R57) -/

/-- The state with the scheduler's fields set: `CYCLE_ACC` and the record of ticks to given values, `TIMER_ACC` through a function. -/
def State.paced (s : State) (cyc : Nat) (tim : Nat → Nat) (b : Option Nat) (inp : List Input) : State :=
  { s with cycleAcc := cyc, timerAcc := tim s.timerAcc, batch := b, inputs := inp }

@[simp] theorem State.paced_sp (s : State) (cyc : Nat) (tim : Nat → Nat) (b : Option Nat) (inp : List Input) :
    (s.paced cyc tim b inp).sp = s.sp := rfl

@[simp] theorem State.paced_cfg (s : State) (cyc : Nat) (tim : Nat → Nat) (b : Option Nat) (inp : List Input) :
    (s.paced cyc tim b inp).cfg = s.cfg := rfl

theorem State.unpaced_eq (s : State) : s.unpaced = s.paced 0 (fun _ => 0) none [] := rfl

/-- An attempt whose end state has the scheduler's fields set. -/
def Attempt.paced {α : Type} (p : Attempt α) (cyc : Nat) (tim : Nat → Nat) (b : Option Nat) (inp : List Input) : Attempt α :=
  match p with
  | .ok a t     => .ok a (t.paced cyc tim b inp)
  | .raised k t => .raised k (t.paced cyc tim b inp)

/-- An outcome whose next state has the scheduler's fields set. -/
def pacedOutcome (o : Host.Outcome State Fault Refusal) (cyc : Nat) (tim : Nat → Nat) (b : Option Nat) (inp : List Input) :
    Host.Outcome State Fault Refusal :=
  match o with
  | .next t    => .next (t.paced cyc tim b inp)
  | .fault f   => .fault f
  | .refused r => .refused r

variable (cyc : Nat) (tim : Nat → Nat) (b : Option Nat) (inp : List Input)

theorem Attempt.finish_paced (p : Attempt Unit) :
    (p.paced cyc tim b inp).finish = pacedOutcome p.finish cyc tim b inp := by cases p <;> rfl

theorem storeBytes_paced (bytes : List Byte) (a : Nat) (s : State) :
    storeBytes a bytes (s.paced cyc tim b inp) = (storeBytes a bytes s).paced cyc tim b inp := by
  induction bytes generalizing a s with
  | nil => rfl
  | cons u rest ih =>
    simp only [storeBytes]
    by_cases ha : a < s.cfg.memSize
    · rw [memWrite_ok u ha, memWrite_ok (s := s.paced cyc tim b inp) u ha]
      exact ih (a + 1) { s with mem := s.mem.write a u }
    · rw [memWrite_raised u (Nat.not_lt.1 ha), memWrite_raised (s := s.paced cyc tim b inp) u (Nat.not_lt.1 ha)]; rfl

theorem loadRegs_paced (regs : List Reg) (a : Nat) (s : State) :
    loadRegs a regs (s.paced cyc tim b inp) = (loadRegs a regs s).paced cyc tim b inp := by
  induction regs generalizing a s with
  | nil => rfl
  | cons r rest ih =>
    simp only [loadRegs]
    by_cases ha : a < s.cfg.memSize
    · rw [memRead_ok ha, memRead_ok (s := s.paced cyc tim b inp) ha]
      exact ih (a + 1) (s.writeV r (s.mem.read a))
    · rw [memRead_raised (Nat.not_lt.1 ha), memRead_raised (s := s.paced cyc tim b inp) (Nat.not_lt.1 ha)]; rfl

theorem drawBit_paced (j : Nat) (s : State) :
    drawBit j (s.paced cyc tim b inp) = (drawBit j s).paced cyc tim b inp := by
  unfold drawBit
  rw [show (s.paced cyc tim b inp).cell j = s.cell j from rfl]
  split <;> rfl

theorem drawRow_paced (w h ox oy r : Nat) (row : Byte) (cols : List Nat) (s : State) :
    drawRow w h ox oy r row cols (s.paced cyc tim b inp) = (drawRow w h ox oy r row cols s).paced cyc tim b inp := by
  induction cols generalizing s with
  | nil => rfl
  | cons c rest ih =>
    simp only [drawRow]
    split
    · rw [drawBit_paced, ih]
    · exact ih _

theorem drawRows_paced (w h ox oy : Nat) (rows : List Nat) (s : State) :
    drawRows w h ox oy rows (s.paced cyc tim b inp) = (drawRows w h ox oy rows s).paced cyc tim b inp := by
  induction rows generalizing s with
  | nil => rfl
  | cons r rest ih =>
    simp only [drawRows]
    have e : (s.paced cyc tim b inp).transferAddress r = s.transferAddress r := rfl
    rw [e]
    by_cases ha : s.transferAddress r < s.cfg.memSize
    · rw [memRead_ok ha, memRead_ok (s := s.paced cyc tim b inp) ha]
      simp only [Attempt.andThen_ok, drawRow_paced]
      exact ih _
    · rw [memRead_raised (Nat.not_lt.1 ha), memRead_raised (s := s.paced cyc tim b inp) (Nat.not_lt.1 ha)]; rfl

theorem pop_paced (s : State) : pop (s.paced cyc tim b inp) = (pop s).paced cyc tim b inp := by
  simp only [pop, peek]
  rw [State.paced_sp, State.paced_cfg]
  split
  · rfl
  · by_cases hm : s.sp.toNat + 1 < s.cfg.memSize
    · rw [readWord_ok hm, readWord_ok (s := s.paced cyc tim b inp) hm]; rfl
    · rw [readWord_raised (Nat.not_lt.1 hm), readWord_raised (s := s.paced cyc tim b inp) (Nat.not_lt.1 hm)]; rfl

theorem push_paced (u : Word) (s : State) : push u (s.paced cyc tim b inp) = (push u s).paced cyc tim b inp := by
  simp only [push]
  rw [State.paced_sp, State.paced_cfg]
  split
  · rfl
  · exact storeBytes_paced cyc tim b inp [highByte u, lowByte u] (s.sp - 2).toNat { s with sp := s.sp - 2 }

theorem skipIf_paced (c : Bool) (s : State) :
    (s.paced cyc tim b inp).skipIf c = (s.skipIf c).paced cyc tim b inp := by cases c <;> rfl

theorem skipOnKey_paced (x : Reg) (wanted : Bool) (s : State) :
    skipOnKey x wanted (s.paced cyc tim b inp) = (skipOnKey x wanted s).paced cyc tim b inp := by
  by_cases hk : s.cfg.numKeys ≤ (s.readV x).toNat
  · have h : skipOnKey x wanted s = .raised .keyIndex s := if_pos hk
    rw [h]; exact if_pos hk
  · have h : skipOnKey x wanted s = .ok () (s.skipIf (s.keys.getLsbD (s.readV x).toNat == wanted)) := if_neg hk
    rw [h, Attempt.paced, ← skipIf_paced]; exact if_neg hk

/-- A write of `DT` may clear `TIMER_ACC`, so it commutes where the function keeps 0. -/
theorem setDelayTimer_paced (h0 : tim 0 = 0) (u : Byte) (s : State) :
    (s.paced cyc tim b inp).setDelayTimer u = (s.setDelayTimer u).paced cyc tim b inp := by
  have h : (if s.dt = 0 ∨ u = 0 then 0 else tim s.timerAcc) = tim (if s.dt = 0 ∨ u = 0 then 0 else s.timerAcc) := by
    split
    · exact h0.symm
    · rfl
  unfold State.setDelayTimer State.paced
  simp only [h]

theorem writeResultAndFlag_paced (x : Reg) (u : Byte) (f : Bool) (s : State) :
    (s.paced cyc tim b inp).writeResultAndFlag x u f = (s.writeResultAndFlag x u f).paced cyc tim b inp := by
  unfold State.writeResultAndFlag
  rw [show (s.paced cyc tim b inp).cfg = s.cfg from rfl]
  cases s.cfg.flagOrder <;> rfl

/-- An instruction commutes with a change of the scheduler's fields that keeps an empty `TIMER_ACC` empty. -/
theorem exec_paced (h0 : tim 0 = 0) (i : Instr) (s : State) :
    exec i (s.paced cyc tim b inp) = pacedOutcome (exec i s) cyc tim b inp := by
  cases i
  case ret => simp only [exec, execRet, pop_paced]; cases pop s <;> rfl
  case call nnn =>
    simp only [exec, execCall]
    rw [show (s.paced cyc tim b inp).pc = s.pc from rfl, push_paced]
    cases push s.pc s <;> rfl
  case ldB x =>
    exact (congrArg _ (storeBytes_paced cyc tim b inp _ _ s)).trans (Attempt.finish_paced ..)
  case dump x =>
    exact (congrArg _ (storeBytes_paced cyc tim b inp _ _ s)).trans (Attempt.finish_paced ..)
  case load x =>
    exact (congrArg _ (loadRegs_paced cyc tim b inp _ _ s)).trans (Attempt.finish_paced ..)
  case drw x y n =>
    exact (congrArg _ (drawRows_paced cyc tim b inp _ _ _ _ _ (s.writeV s.cfg.flagReg 0))).trans (Attempt.finish_paced ..)
  case skp x | sknp x =>
    exact (congrArg _ (skipOnKey_paced cyc tim b inp x _ s)).trans (Attempt.finish_paced ..)
  case ldDtVx x => exact congrArg _ (setDelayTimer_paced cyc tim b inp h0 _ s)
  case seKk | sneKk | seVy | sneVy => exact congrArg _ (skipIf_paced cyc tim b inp _ s)
  case addVy | subVy | subnVy | shr | shl => exact congrArg _ (writeResultAndFlag_paced cyc tim b inp _ _ _ s)
  all_goals rfl

/-- So does a whole instruction step. -/
theorem instrStep_paced (h0 : tim 0 = 0) (s : State) :
    instrStep (s.paced cyc tim b inp) = pacedOutcome (instrStep s) cyc tim b inp := by
  unfold instrStep
  by_cases hp : s.pc.toNat + 1 < s.cfg.memSize
  · rw [fetch_ok hp, fetch_ok (s := s.paced cyc tim b inp) hp]
    exact exec_paced cyc tim b inp h0 _ s.advancePc
  · rw [fetch_raised (Nat.not_lt.1 hp), fetch_raised (s := s.paced cyc tim b inp) (Nat.not_lt.1 hp)]; rfl

end Sys2Proof.Machine
end

