-- ==== Sys2Proof/Tests/Slice0.lean ====
section
/-! SUPPORT. Tests of the model on the vectors of 95_test_vectors.md and the examples of the rules (their ids in the comments), and for
each statement with hypotheses a concrete state that meets them together. -/

namespace Sys2Proof.Tests

open Sys2Proof Sys2Proof.Machine

/-! ## Helpers -/

/-- The reset state with some registers set. -/
def withRegs (regs : List (Reg × Byte)) : State := regs.foldl (fun s p => s.writeV p.1 p.2) State.reset

/-- A state with some bytes placed from an address on. -/
def withBytes (a : Nat) (bytes : List Byte) (s : State) : State := { s with mem := Memory.place a bytes s.mem }

/-- A check of the next state; false on a fault or a refusal. -/
def nextIs (o : Host.Outcome State Fault Refusal) (check : State → Bool) : Bool :=
  match o with
  | .next t    => check t
  | .fault _   => false
  | .refused _ => false

/-- A check of the state one step leaves when the word `w` stands at `PC`. -/
def stepOf (w : Nat) (s : State) (check : State → Bool) : Bool := nextIs (step (s.withFetchWord 16 w)) check

/-- A block of bytes read back. -/
def bytesAt (a n : Nat) (s : State) : List Byte := (List.range n).map fun k => s.mem.read (a + k)

/-- The indices of the cells that are on, among those given. -/
def onAmong (js : List Nat) (s : State) : List Nat := js.filter fun j => s.cell j

/-! ## WellFormed -/

/-- An `unknown` over a catalogued word is ill-formed. -/
theorem test_wf_unknown_catalogued : (Instr.unknown 0x00E0).wf .unknown = false := by decide

/-- `unknown` over `Bnnn` is ill-formed where `Bnnn` is a jump, and well-formed where it is not. -/
theorem test_wf_unknown_jump : (Instr.unknown 0xB123).wf .jumpV0 = false ∧ (Instr.unknown 0xB123).wf .unknown = true := by
  decide

/-- `jpV0` is ill-formed where `Bnnn` is UNKNOWN. -/
theorem test_wf_jpV0 : (Instr.jpV0 0x123).wf .unknown = false ∧ (Instr.jpV0 0x123).wf .jumpV0 = true := by decide

/-! ## Decoding: words written out from the encodings of 30_encoding.md R82, R100 -/

theorem test_decode_fixed :
    decode .unknown 0b0000000011100000 = .cls ∧ decode .unknown 0b0000000011101110 = .ret := by decide

theorem test_decode_nnn :
    decode .unknown 0b0001001000110100 = .jp 0x234 ∧ decode .unknown 0b0010001100000000 = .call 0x300 ∧
    decode .unknown 0b1010000100100011 = .ldI 0x123 ∧ decode .jumpV0 0b1011001100000000 = .jpV0 0x300 := by decide

theorem test_decode_xkk :
    decode .unknown 0b0011001000010000 = .seKk 2 0x10 ∧ decode .unknown 0b0100001000010001 = .sneKk 2 0x11 ∧
    decode .unknown 0b0110101011111111 = .ldKk 10 0xFF ∧ decode .unknown 0b0111001100100000 = .addKk 3 0x20 ∧
    decode .unknown 0b1100001110100101 = .rnd 3 0xA5 := by decide

theorem test_decode_xy :
    decode .unknown 0b0101000100100000 = .seVy 1 2 ∧ decode .unknown 0b1000000000010000 = .ldVy 0 1 ∧
    decode .unknown 0b1000000000010001 = .orVy 0 1 ∧ decode .unknown 0b1000000000010010 = .andVy 0 1 ∧
    decode .unknown 0b1000000000010011 = .xorVy 0 1 ∧ decode .unknown 0b1000000011110100 = .addVy 0 15 := by decide

theorem test_decode_xy_more :
    decode .unknown 0b1000000000010101 = .subVy 0 1 ∧ decode .unknown 0b1000010101100110 = .shr 5 6 ∧
    decode .unknown 0b1000000000010111 = .subnVy 0 1 ∧ decode .unknown 0b1000000000011110 = .shl 0 1 ∧
    decode .unknown 0b1001101010110000 = .sneVy 10 11 ∧ decode .unknown 0b1101000000010101 = .drw 0 1 5 := by decide

theorem test_decode_keys_timers :
    decode .unknown 0b1110000110011110 = .skp 1 ∧ decode .unknown 0b1110000110100001 = .sknp 1 ∧
    decode .unknown 0b1111001000000111 = .ldVxDt 2 ∧ decode .unknown 0b1111001100001010 = .ldVxK 3 ∧
    decode .unknown 0b1111010100010101 = .ldDtVx 5 ∧ decode .unknown 0b1111000000011000 = .ldStVx 0 := by decide

theorem test_decode_transfers :
    decode .unknown 0b1111000100011110 = .addI 1 ∧ decode .unknown 0b1111010000101001 = .ldF 4 ∧
    decode .unknown 0b1111000000110011 = .ldB 0 ∧ decode .unknown 0b1111001001010101 = .dump 2 ∧
    decode .unknown 0b1111010001100101 = .load 4 := by decide

/-- DEC-3, DEC-5, DEC-9, DEC-10, DEC-13, DEC-15, DEC-17. -/
theorem test_decode_unknown :
    decode .unknown 0x00E1 = .unknown 0x00E1 ∧ decode .unknown 0 = .unknown 0 ∧ decode .unknown 0x9AB3 = .unknown 0x9AB3 ∧
    decode .unknown 0x8018 = .unknown 0x8018 ∧ decode .unknown 0xB123 = .unknown 0xB123 ∧
    decode .unknown 0xE19F = .unknown 0xE19F ∧ decode .unknown 0xF0FF = .unknown 0xF0FF := by decide

/-- The high byte stands first (R53); one byte alone starts no instruction. -/
theorem test_decode_bytes :
    (match decodeBytes .unknown [0x12, 0x34, 0x56] with | .ok (i, rest) => i == .jp 0x234 && rest == [0x56] | .error _ => false)
      = true ∧
    (match decodeBytes .unknown [0x12] with | .ok _ => false | .error e => e == .fewerThanTwoBytes) = true := by decide

theorem test_decode_table_word :
    decodeTableWord 16 0x1234 = some (.jp 0x234) ∧ decodeTableWord 16 0xF165 = some (.load 1) ∧
    decodeTableWord 32 0x1234 = none := by decide

/-! ## Fetch (FET-1, FET-3, FET-4) -/

theorem test_step_fetches_big_endian :
    nextIs (step (withBytes 0x200 [0x12, 0x34] State.reset)) (fun t => t.pc == 0x234) = true := by decide

theorem test_fetch_out_of_range :
    nextIs (step { State.reset with pc := 0xFFE }) (fun t => t.run == .fatal .memRange && t.pc == 0xFFE) = true := by
  decide

theorem test_fetch_odd_address :
    stepOf 0xA123 { State.reset with pc := 0x201 } (fun t => t.i == 0x123 && t.pc == 0x203) = true := by decide

/-! ## Control transfer (CF-…) -/

theorem test_jp : stepOf 0x120A State.reset (fun t => t.pc == 0x20A) = true := by decide

theorem test_call :
    stepOf 0x2300 { State.reset with pc := 0x204 }
      (fun t => t.pc == 0x300 && t.sp == 0x1FE && bytesAt 0x1FD 4 t == [0, 2, 6, 0]) = true := by decide

theorem test_call_overflow :
    stepOf 0x2300 { State.reset with sp := 0x1E0 }
      (fun t => t.run == .fatal .stackOverflow && t.pc == 0x202 && t.sp == 0x1E0 && bytesAt 0x1DE 2 t == [0, 0]) = true := by
  decide

theorem test_ret :
    stepOf 0x00EE (withBytes 0x1FE [2, 6] { State.reset with sp := 0x1FE, pc := 0x300 })
      (fun t => t.pc == 0x206 && t.sp == 0x200) = true := by decide

theorem test_ret_underflow :
    stepOf 0x00EE State.reset (fun t => t.run == .fatal .stackUnderflow && t.pc == 0x202 && t.sp == 0x200) = true := by
  decide

theorem test_seKk :
    stepOf 0x3210 (withRegs [(2, 0x10)]) (fun t => t.pc == 0x204) = true ∧
    stepOf 0x3211 (withRegs [(2, 0x10)]) (fun t => t.pc == 0x202) = true := by decide

theorem test_sneKk :
    stepOf 0x4211 (withRegs [(2, 0x10)]) (fun t => t.pc == 0x204) = true ∧
    stepOf 0x4210 (withRegs [(2, 0x10)]) (fun t => t.pc == 0x202) = true := by decide

theorem test_seVy :
    stepOf 0x5120 (withRegs [(1, 7), (2, 7)]) (fun t => t.pc == 0x204) = true ∧
    stepOf 0x5120 (withRegs [(1, 7), (2, 8)]) (fun t => t.pc == 0x202) = true := by decide

theorem test_sneVy :
    stepOf 0x9120 (withRegs [(1, 7), (2, 8)]) (fun t => t.pc == 0x204) = true ∧
    stepOf 0x9110 (withRegs [(1, 7)]) (fun t => t.pc == 0x202) = true := by decide

/-- CF-JPV0-1, CF-JPV0-2. -/
theorem test_jpV0 :
    stepOf 0xB300 { withRegs [(0, 4)] with cfg := { Config.documented with bnnnMode := .jumpV0 } }
      (fun t => t.pc == 0x304) = true ∧
    stepOf 0xB300 (withRegs [(0, 4)]) (fun t => t.pc == 0x202) = true := by decide

/-! ## ALU (ALU-…, L1-1) -/

theorem test_ldKk : stepOf 0x6AFF State.reset (fun t => t.readV 10 == 0xFF && t.pc == 0x202) = true := by decide

theorem test_addKk :
    stepOf 0x7380 (withRegs [(3, 0x80), (15, 1)]) (fun t => t.readV 3 == 0 && t.readV 15 == 1) = true ∧
    stepOf 0x7F01 (withRegs [(15, 1)]) (fun t => t.readV 15 == 2) = true := by decide

theorem test_ldVy : stepOf 0x8010 (withRegs [(1, 0x42)]) (fun t => t.readV 0 == 0x42 && t.readV 1 == 0x42) = true := by
  decide

theorem test_orVy :
    stepOf 0x8011 (withRegs [(0, 0x0F), (1, 0xF0), (15, 1)]) (fun t => t.readV 0 == 0xFF && t.readV 15 == 1) = true := by
  decide

theorem test_andVy : stepOf 0x8012 (withRegs [(0, 0x3C), (1, 0x0F)]) (fun t => t.readV 0 == 0x0C) = true := by decide

theorem test_xorVy : stepOf 0x8013 (withRegs [(0, 0xFF), (1, 0x0F)]) (fun t => t.readV 0 == 0xF0) = true := by decide

theorem test_addVy :
    stepOf 0x8014 (withRegs [(0, 0xC8), (1, 0x64)]) (fun t => t.readV 0 == 0x2C && t.readV 15 == 1) = true ∧
    stepOf 0x80F4 (withRegs [(0, 0x10), (15, 1)]) (fun t => t.readV 0 == 0x11 && t.readV 15 == 0) = true := by decide

/-- ALU-ADD-3: the order of result and flag. -/
theorem test_addVy_flag_order :
    stepOf 0x8F14 (withRegs [(15, 0xF0), (1, 0x20)]) (fun t => t.readV 15 == 1) = true ∧
    stepOf 0x8F14 { withRegs [(15, 0xF0), (1, 0x20)] with cfg := { Config.documented with flagOrder := .resultLast } }
      (fun t => t.readV 15 == 0x10) = true := by decide

theorem test_subVy :
    stepOf 0x8015 (withRegs [(0, 3), (1, 10)]) (fun t => t.readV 0 == 0xF9 && t.readV 15 == 0) = true ∧
    stepOf 0x8015 (withRegs [(0, 0x55), (1, 0x55)]) (fun t => t.readV 0 == 0 && t.readV 15 == 0) = true := by decide

theorem test_subnVy :
    stepOf 0x8017 (withRegs [(0, 3), (1, 10)]) (fun t => t.readV 0 == 7 && t.readV 15 == 1) = true ∧
    stepOf 0x8017 (withRegs [(0, 1), (1, 0)]) (fun t => t.readV 0 == 0xFF && t.readV 15 == 0) = true := by decide

theorem test_shr :
    stepOf 0x8566 (withRegs [(5, 4), (6, 0xFF)]) (fun t => t.readV 5 == 2 && t.readV 15 == 0) = true ∧
    stepOf 0x8506 (withRegs [(5, 5)]) (fun t => t.readV 5 == 2 && t.readV 15 == 1) = true := by decide

theorem test_shl :
    stepOf 0x850E (withRegs [(5, 0x81)]) (fun t => t.readV 5 == 2 && t.readV 15 == 1) = true ∧
    stepOf 0x850E (withRegs [(5, 0x40)]) (fun t => t.readV 5 == 0x80 && t.readV 15 == 0) = true := by decide

/-- ALU-RND-2: no bit outside the mask, and a draw is taken. -/
theorem test_rnd : ∃ t, exec (.rnd 2 0) State.reset = .next t ∧ t.readV 2 = 0 ∧ t.draws = 1 :=
  ⟨_, rfl, by simp, rfl⟩

/-! ## Address register and memory transfers (ADDR-…, MEM-…) -/

theorem test_ldI : stepOf 0xAFFF State.reset (fun t => t.i == 0xFFF && t.run == .running) = true := by decide

theorem test_addI :
    stepOf 0xF11E { withRegs [(1, 2)] with i := 0xFFFF } (fun t => t.i == 1 && t.readV 15 == 0) = true := by decide

theorem test_ldF :
    stepOf 0xF429 (withRegs [(4, 0x0A)]) (fun t => t.i == 0x32) = true ∧
    stepOf 0xF429 (withRegs [(4, 0xFF)]) (fun t => t.i == 0x4FB) = true := by decide

theorem test_ldB :
    stepOf 0xF033 { withRegs [(0, 123)] with i := 0x300 }
      (fun t => bytesAt 0x2FF 5 t == [0, 1, 2, 3, 0] && t.i == 0x300) = true := by decide

/-- MEM-BCD-5. -/
theorem test_ldB_out_of_range :
    stepOf 0xF033 { withRegs [(0, 123)] with i := 0xFFE }
      (fun t => t.run == .fatal .memRange && t.mem.read 0xFFE == 1) = true := by decide

theorem test_dump :
    stepOf 0xF255 { withRegs [(0, 1), (1, 2), (2, 3), (3, 4)] with i := 0x400 }
      (fun t => bytesAt 0x400 4 t == [1, 2, 3, 0] && t.i == 0x400) = true := by decide

/-- MEM-ST-3. -/
theorem test_dump_out_of_range :
    stepOf 0xFF55 { withRegs [(0, 7), (14, 9), (15, 5)] with i := 0xFF0 }
      (fun t => t.run == .fatal .memRange && t.mem.read 0xFF0 == 7 && t.mem.read 0xFFE == 9) = true := by decide

/-- MEM-LD-1: the font's glyph 0. -/
theorem test_load :
    stepOf 0xF465 (withRegs [(5, 0x77)])
      (fun t => [t.readV 0, t.readV 1, t.readV 2, t.readV 3, t.readV 4, t.readV 5] == [0xF0, 0x90, 0x90, 0x90, 0xF0, 0x77]
        && t.i == 0) = true := by decide

/-! ## Framebuffer (DISP-…) -/

theorem test_cls :
    stepOf 0x00E0 ((withRegs [(15, 1)]).flipCell 70) (fun t => t.fb == Vector.replicate 32 0 && t.readV 15 == 1) = true := by
  decide

/-- DISP-1: glyph 0 at the top left. -/
theorem test_drw_glyph :
    stepOf 0xD005 State.reset
      (fun t => onAmong (List.range 320) t == [0, 1, 2, 3, 64, 67, 128, 131, 192, 195, 256, 257, 258, 259] && t.readV 15 == 0)
      = true := by decide

/-- DISP-3: the wrap at the right edge. -/
theorem test_drw_wrap :
    stepOf 0xD011 (withBytes 0x300 [0xFF] { withRegs [(0, 60)] with i := 0x300 })
      (fun t => onAmong (List.range 64) t == [0, 1, 2, 3, 60, 61, 62, 63] && t.readV 15 == 0) = true := by decide +kernel

/-- DISP-9: the flag sticks; DISP-7: the origin is read before VF is cleared. -/
theorem test_drw_flag :
    stepOf 0xD012 (withBytes 0x300 [0x80, 0x80] { State.reset.flipCell 0 with i := 0x300 })
      (fun t => onAmong [0, 64] t == [64] && t.readV 15 == 1) = true ∧
    stepOf 0xDF01 (withBytes 0x300 [0x80] { withRegs [(15, 5)] with i := 0x300 })
      (fun t => onAmong (List.range 64) t == [5] && t.readV 15 == 0) = true := by decide

/-- DISP-10: the rows before the unbacked byte are composed. -/
theorem test_drw_out_of_range :
    stepOf 0xD012 (withBytes 0xFFE [0x80] { State.reset with i := 0xFFE })
      (fun t => t.run == .fatal .memRange && onAmong (List.range 128) t == [0]) = true := by decide

/-! ## Keypad, halt, timers, unknown words (KEY-…, TMR-…, UNK-…) -/

theorem test_skp :
    stepOf 0xE19E { withRegs [(1, 7)] with keys := 0x80 } (fun t => t.pc == 0x204) = true ∧
    stepOf 0xE19E (withRegs [(1, 16)]) (fun t => t.run == .fatal .keyIndex && t.pc == 0x202) = true := by decide

theorem test_sknp :
    stepOf 0xE1A1 (withRegs [(1, 7)]) (fun t => t.pc == 0x204) = true ∧
    stepOf 0xE1A1 { withRegs [(1, 7)] with keys := 0x80 } (fun t => t.pc == 0x202) = true := by decide

theorem test_ldVxK :
    stepOf 0xF30A State.reset (fun t => t.run == .haltedForKey && t.haltReg == 3 && t.pc == 0x202 && t.readV 3 == 0) = true := by
  decide

/-- KEY-HALT-2 and KEY-HALT-3: the resume takes the lowest key; with none the core stays halted and `DT` decays. -/
theorem test_resume :
    nextIs (tick 20000 0x1210 { State.reset with run := .haltedForKey, haltReg := 3 })
      (fun t => t.readV 3 == 4 && t.run == .running && t.keys == 0x1210) = true ∧
    nextIs (tick 20000 0 { State.reset with run := .haltedForKey, haltReg := 3, dt := 2, cycleAcc := 9 })
      (fun t => t.run == .haltedForKey && t.cycleAcc == 0 && t.dt == 1 && t.timerAcc == 4000) = true := by decide

theorem test_ldVxDt : stepOf 0xF207 { State.reset with dt := 0x3C } (fun t => t.readV 2 == 0x3C) = true := by decide

theorem test_ldDtVx :
    stepOf 0xF515 (withRegs [(5, 10)]) (fun t => t.dt == 10) = true ∧
    stepOf 0xF515 { withRegs [(5, 10)] with cfg := { Config.documented with fx15Mode := .nibble } } (fun t => t.dt == 5) = true := by
  decide

/-- TMR-SET-2 and the corner cases of R234: writing 0 stops the timer, between values above 0 the fraction stays, and after a 0 the
count starts afresh. -/
theorem test_ldDtVx_fraction :
    stepOf 0xF515 { State.reset with dt := 7, timerAcc := 9000 } (fun t => t.dt == 0 && t.timerAcc == 0) = true ∧
    stepOf 0xF515 { withRegs [(5, 10)] with dt := 7, timerAcc := 9000 } (fun t => t.dt == 10 && t.timerAcc == 9000) = true ∧
    nextIs (execAll [.ldDtVx 0, .ldDtVx 5] { withRegs [(5, 10)] with dt := 7, timerAcc := 9000 })
      (fun t => t.dt == 10 && t.timerAcc == 0) = true := by decide

theorem test_ldStVx : stepOf 0xF018 (withRegs [(0, 0x20)]) (fun t => t.st == 0x20 && t.dt == 0) = true := by decide

theorem test_unknown :
    stepOf 0x0123 State.reset (fun t => t.pc == 0x202 && t.run == .running) = true ∧
    diagPort (State.reset.withFetchWord 16 0x0123) = some 0x0123 ∧ diagPort (State.reset.withFetchWord 16 0x1200) = none := by
  decide

/-! ## Timer and scheduler (TMR-2, TMR-3, TMR-5, SCH-1, SCH-4, SCH-5) -/

theorem test_timer :
    (let t := timerUpdate 30000 { State.reset with dt := 5, timerAcc := 10000 }; t.dt == 3 && t.timerAcc == 8000) = true ∧
    (let t := timerUpdate 100000 { State.reset with dt := 3 }; t.dt == 0 && t.timerAcc == 0) = true ∧
    (let t := timerUpdate 1 { State.reset with dt := 1, timerAcc := 15999 }; t.dt == 0 && t.timerAcc == 0) = true := by
  decide

theorem test_tick_budget :
    nextIs (tick 1400 0 State.reset) (fun t => t.pc == 0x200 && t.cycleAcc == 1400) = true ∧
    nextIs (tick 16000 0 State.reset) (fun t => t.pc == 0x216 && t.cycleAcc == 600) = true := by decide

theorem test_tick_halt :
    nextIs (tick 16000 0 (withBytes 0x204 [0xF3, 0x0A] State.reset))
      (fun t => t.pc == 0x206 && t.run == .haltedForKey && t.cycleAcc == 0) = true := by decide

/-- A step at the start of a tick samples the keys and adds the budget. -/
theorem test_step_begins_tick :
    nextIs (step { State.reset with inputs := [.tick 1401 5] })
      (fun t => t.keys == 5 && t.cycleAcc == 1401 && t.batch == some 1401 && t.inputs == []) = true := by decide

/-! ## Reset and loader (RST-1, RST-3, RST-5) -/

theorem test_reset_image :
    (let s := State.resetWith Config.documented [0x12, 0x00]
     bytesAt 0x1FF 4 s == [0, 0x12, 0, 0] && s.run == .running && nextIs (step s) (fun t => t.pc == 0x200)) = true := by
  decide

theorem test_reset_too_large :
    (let s := State.resetWith Config.documented (List.replicate 3584 1)
     s.run == .fatal .imageTooLarge && s.mem == [] && fatalPort s == 5) = true := by decide +kernel

theorem test_reset_font :
    bytesAt 0 5 State.reset = [0xF0, 0x90, 0x90, 0x90, 0xF0] ∧ bytesAt 0x4B 6 State.reset = [0xF0, 0x80, 0xF0, 0x80, 0x80, 0] := by
  decide

/-- FONT is a parameter (R7, R33): a reset under another table loads that table at 0, and nothing else changes. -/
theorem test_reset_other_font :
    (let s := State.resetWith { Config.documented with font := List.replicate 80 0x11 } []
     bytesAt 0 3 s == [0x11, 0x11, 0x11] && bytesAt 0x4F 3 s == [0x11, 0, 0] && s.pc == 0x200) = true := by decide +kernel

/-! ## Witnesses: a concrete state and operands meeting all hypotheses of a statement, each clause at a boundary -/

/-- ResetEstablishesEveryValue: the longest image that fits, under the values of R7. -/
theorem witness_image_fits :
    Config.documented.fixedRows ∧ (List.replicate 3583 (1 : Byte)).length ≤ Config.documented.memSize - 0x200 := by
  rw [List.length_replicate]; decide

/-- LoaderRejectsOversizeImage, second clause: one byte more. -/
theorem witness_image_too_large : Config.documented.memSize - Config.documented.programStart < (List.replicate 3584 (1 : Byte)).length := by
  rw [List.length_replicate]; decide

/-- ResetMeetsInvariant: the values of R7, and the largest memory. -/
theorem witness_config : Config.documented.wf ∧ { Config.documented with memSize := 4096 }.wf := by decide

/-- AddRegistersSetsCarry, SubtractSetsStrictFlag, SubtractReversedSetsStrictFlag, ShiftsMoveOneBit, FramebufferPortShowsCells,
KeySkipsTestTheKey, and the statements about DRW: the fixed rows of R7 at the reset state, and under another font. -/
theorem witness_fixed_rows :
    State.reset.cfg.fixedRows ∧ { Config.documented with font := List.replicate 80 0x11, flagOrder := .resultLast }.fixedRows := by
  decide

/-- DecodeOfEncodeIsIdentity: a jump, the conditional jump, an unknown word. -/
theorem witness_wf :
    (Instr.jp 0xFFF).wf .unknown = true ∧ (Instr.jpV0 0).wf .jumpV0 = true ∧ (Instr.unknown 0x00E1).wf .jumpV0 = true := by decide

/-- StepRunsDecodedInstruction: the last word that can be fetched (0xFFD), and the first `PC` that cannot fetch. -/
theorem witness_step :
    (let s := withBytes 0xFFD [0x12, 0x34] { State.reset with pc := 0xFFD }
     s.run = .running ∧ s.batch = none ∧ s.inputs = [] ∧ s.pc.toNat + 1 < s.cfg.memSize ∧
     (0x1234 : Word).toNat = 256 * (s.mem.read s.pc.toNat).toNat + (s.mem.read (s.pc.toNat + 1)).toNat) ∧
    (let s := { State.reset with pc := 0xFFE }
     s.run = .running ∧ s.batch = none ∧ s.inputs = [] ∧ s.cfg.memSize ≤ s.pc.toNat + 1) := by decide

/-- BatchStepRunsDecodedInstruction: one microsecond more than one instruction's time; an instruction that goes on, and one that
ends in FATAL. -/
theorem witness_batch_step :
    (let s := withBytes 0x200 [0x60, 0x07] { State.reset with batch := some 9, cycleAcc := 1401 }
     s.run = .running ∧ s.batch = some 9 ∧ s.cfg.tInstr < s.cycleAcc ∧ s.pc.toNat + 1 < s.cfg.memSize ∧
     (0x6007 : Word).toNat = 256 * (s.mem.read s.pc.toNat).toNat + (s.mem.read (s.pc.toNat + 1)).toNat ∧
     ∃ t, exec (decode s.cfg.bnnnMode 0x6007) { s with pc := s.pc + 2 } = .next t ∧ t.isFatal = false) ∧
    (let s := withBytes 0x200 [0x00, 0xEE] { State.reset with batch := some 9, cycleAcc := 1401 }
     (0x00EE : Word).toNat = 256 * (s.mem.read s.pc.toNat).toNat + (s.mem.read (s.pc.toNat + 1)).toNat ∧
     ∃ t, exec (decode s.cfg.bnnnMode 0x00EE) { s with pc := s.pc + 2 } = .next t ∧ t.isFatal = true) :=
  ⟨⟨rfl, rfl, by decide, by decide, by decide, _, rfl, rfl⟩, by decide, _, rfl, rfl⟩

/-- FatalKindsByInstruction: RET with the stack empty. -/
theorem witness_fatal_kind :
    State.reset.inv ∧ State.reset.isFatal = false ∧
      ∃ t, exec .ret State.reset = .next t ∧ t.run = .fatal .stackUnderflow :=
  ⟨by decide, rfl, _, rfl, rfl⟩

/-- InstructionsWriteOnlyTheirState: each clause's condition is met by CLS or by JP. -/
theorem witness_frames :
    (∃ t, exec .cls State.reset = .next t) ∧ Instr.cls.writesSp = false ∧ Instr.cls.writesI = false ∧
    Instr.cls.writesMem = false ∧ Instr.cls.writesPc = false ∧ Instr.cls.writesFlag = false ∧
    (∃ t, exec (.jp 0) State.reset = .next t) ∧ (Instr.jp 0).writesFb = false ∧ (Instr.jp 0).destination 15 = false :=
  ⟨⟨_, rfl⟩, rfl, rfl, rfl, rfl, rfl, ⟨_, rfl⟩, rfl, rfl⟩

/-- CallPushesReturnAddress, CallThenReturnRestores: the stack empty, one slot free, and none free. -/
theorem witness_call :
    State.reset.cfg.wf ∧ 0x1E2 ≤ State.reset.sp.toNat ∧ State.reset.sp.toNat ≤ 0x200 ∧
    0x1E2 ≤ { State.reset with sp := 0x1E2 }.sp.toNat ∧ { State.reset with sp := 0x1E0 }.sp.toNat < 0x1E2 := by decide

/-- ReturnPopsTarget: one slot in use, and none. -/
theorem witness_ret :
    State.reset.cfg.wf ∧ { State.reset with sp := 0x1FE }.sp.toNat + 2 ≤ 0x200 ∧ 0x200 < State.reset.sp.toNat + 2 := by decide

/-- SixteenCallsThenOverflow. -/
theorem witness_sixteen :
    State.reset.cfg.wf ∧ State.reset.run = .running ∧ State.reset.sp = 0x200 ∧ (List.replicate 16 (0x300 : Imm12)).length = 16 := by
  decide

/-- BcdStoresThreeDigits, DumpStoresRegisters, LoadFillsRegisters: the transfer ends at the last backed byte, 0xFFE. -/
theorem witness_transfer_fits :
    { State.reset with i := 0xFFC }.i.toNat + 2 < State.reset.cfg.memSize ∧
    { State.reset with i := 0xFEF }.i.toNat + (15 : Reg).val < State.reset.cfg.memSize := by decide

/-- TransfersStopAtUnbackedByte: the last byte is the first unbacked one, 0xFFF. -/
theorem witness_transfer_stops :
    State.reset.cfg.memSize ≤ { State.reset with i := 0xFFD }.i.toNat + 2 ∧
    State.reset.cfg.memSize ≤ { State.reset with i := 0xFF0 }.i.toNat + (15 : Reg).val := by decide

/-- DrawComposesSpriteByXor: 15 rows up to 0xFFE; DrawStopsAtUnbackedRow: 15 rows, the last one at 0xFFF. -/
theorem witness_draw :
    (∀ r, r < (15 : Nibble).toNat → { State.reset with i := 0xFF0 }.i.toNat + r < State.reset.cfg.memSize) ∧
    (15 : Nibble) ≠ 0 ∧ State.reset.cfg.memSize < { State.reset with i := 0xFF1 }.i.toNat + (15 : Nibble).toNat := by
  refine ⟨fun r hr => ?_, by decide, by decide⟩
  have h1 : (15 : Nibble).toNat = 15 := rfl
  have h2 : { State.reset with i := 0xFF0 }.i.toNat = 4080 := rfl
  have h3 : State.reset.cfg.memSize = 4095 := rfl
  omega

/-- DrawTwiceRestoresCells: glyph 0 drawn at (0, 0), where the origin does not move. -/
theorem witness_draw_twice :
    (∀ r, r < (5 : Nibble).toNat → State.reset.i.toNat + r < State.reset.cfg.memSize) ∧
    nextIs (exec (.drw 0 1 5) State.reset) (fun t => t.originX 0 == State.reset.originX 0 && t.originY 1 == State.reset.originY 1)
      = true := by
  refine ⟨fun r hr => ?_, by decide⟩
  have h1 : (5 : Nibble).toNat = 5 := rfl
  have h2 : State.reset.i.toNat = 0 := rfl
  have h3 : State.reset.cfg.memSize = 4095 := rfl
  omega

/-- FramebufferPortShowsCells: the last cell. -/
theorem witness_port : (63 : Nat) < 64 ∧ (31 : Nat) < 32 := by decide

/-- KeySkipsTestTheKey: the last key, and the first index past it. -/
theorem witness_key : ((withRegs [(1, 15)]).readV 1).toNat < 16 ∧ 16 ≤ ((withRegs [(1, 16)]).readV 1).toNat := by decide

/-- HaltWaitsForLowestKey: no key, and key 15 alone. -/
theorem witness_halt :
    (0 : BitVec 16) = 0 ∧ (0x8000 : BitVec 16).getLsbD (15 : Fin 16).val = true ∧
    ∀ j : Fin 15, (0x8000 : BitVec 16).getLsbD j.val = false := by decide

/-- UnknownWordIsNoOp: the zero word at 0x200. -/
theorem witness_unknown :
    catalogued State.reset.cfg.bnnnMode 0 = false ∧ State.reset.run = .running ∧ State.reset.batch = none ∧
    State.reset.inputs = [] ∧ State.reset.wordAtPc = some 0 := by decide

/-- DelayTimerDecays. -/
theorem witness_timer : 0 < State.reset.cfg.tTimer := by decide

/-- BatchSpendsItsBudget: 2801 µs buy two UNKNOWN words of the empty memory. -/
theorem witness_batch :
    0 < State.reset.cfg.tInstr ∧ State.reset.run = .running ∧ (State.reset.cycleAcc + 2801 + 1400 - 1) / 1400 - 1 = 2 ∧
    nextIs (instrSteps 1 State.reset) (fun v => v.run == .running) = true ∧
    nextIs (instrSteps 2 State.reset) (fun v => v.run == .running && v.pc == 0x204) = true := by decide

/-- HaltEndsBatch: `F30A` at 0x200 and 1401 µs (k = 0), then at 0x202 behind an UNKNOWN and 2801 µs (k = 1). -/
theorem witness_halt_batch :
    (let s := State.reset.withFetchWord 16 0xF30A
     0 < s.cfg.tInstr ∧ s.run = .running ∧ (0 + 1) * s.cfg.tInstr < s.cycleAcc + 1401 ∧
     nextIs (instrSteps 1 s) (fun u => u.run == .haltedForKey) = true ∧
     nextIs (runBatch 1401 s) (fun t => t.run == .haltedForKey) = true) ∧
    (let s := withBytes 0x202 [0xF3, 0x0A] State.reset
     0 < s.cfg.tInstr ∧ s.run = .running ∧ (1 + 1) * s.cfg.tInstr < s.cycleAcc + 2801 ∧
     nextIs (instrSteps 1 s) (fun v => v.run == .running) = true ∧
     nextIs (instrSteps 2 s) (fun u => u.run == .haltedForKey) = true ∧
     nextIs (runBatch 2801 s) (fun t => t.run == .haltedForKey && t.pc == 0x204) = true) := by decide

/-- FatalStateIsFrozen: in FATAL with no input, with a tick, and with a reset at hand. -/
theorem witness_frozen :
    (State.reset.enterFatal .keyIndex).run = .fatal .keyIndex ∧ (State.reset.enterFatal .keyIndex).inputs = [] ∧
    { State.reset.enterFatal .keyIndex with inputs := [.tick 9 5] }.inputs = [.tick 9 5] ∧
    { State.reset.enterFatal .keyIndex with inputs := [.reset []] }.inputs = [.reset []] := by decide

/-- SCH-6: a tick in FATAL moves nothing, `DT` included. -/
theorem test_tick_in_fatal :
    nextIs (step { State.reset.enterFatal .keyIndex with dt := 7, inputs := [.tick 50000 5] })
      (fun t => t.dt == 7 && t.timerAcc == 0 && t.keys == 0 && t.run == .fatal .keyIndex && t.inputs == []) = true := by decide

/-- StepsPerformWholeTick, StepsAreMovesOfTheRelation, KeysChangeOnlyAtTickStart: a tick at hand that brings new keys. -/
theorem witness_tick :
    (let s := { State.reset with inputs := [.tick 3000 5] }
     0 < s.cfg.tInstr ∧ s.isFatal = false ∧ s.batch = none ∧ s.inputs = [.tick 3000 5] ∧
     (∀ image rest, s.inputs ≠ .reset image :: rest) ∧ ∃ t, step s = .next t ∧ t.keys ≠ s.keys) :=
  ⟨by decide, rfl, rfl, rfl, fun _ _ => by simp, _, rfl, by decide⟩

/-- StepsAreMovesOfTheRelation: the end of a tick in progress while a reset waits. -/
theorem witness_tick_before_reset :
    (let s := { State.reset with batch := some 9, inputs := [.reset []] }
     s.isFatal = false ∧ (s.batch = none → ∀ image rest, s.inputs ≠ .reset image :: rest) ∧
     ∃ t, step s = .next t ∧ t.batch = none ∧ t.inputs = s.inputs) :=
  ⟨rfl, fun h => by simp at h, _, rfl, rfl, rfl⟩

/-- HaltedLeavesOnlyOnKey, the second clause: the tick that halted the core ends with key 15 pressed. -/
theorem witness_halted_tick_end :
    (let s := { State.reset with run := .haltedForKey, batch := some 9, keys := 0x8000, cycleAcc := 50 }
     s.run = .haltedForKey ∧ s.batch = some 9 ∧
     nextIs (step s) (fun t => t.run == .haltedForKey && t.cycleAcc == 0 && t.batch == none && t.readV 0 == 0) = true) := by decide

/-- HaltedLeavesOnlyOnKey, the first clause: a tick with no key, and one with key 15. -/
theorem witness_halted :
    (let s := { State.reset with run := .haltedForKey, inputs := [.tick 1 0] }
     s.run = .haltedForKey ∧ s.batch = none ∧ (∀ image rest, s.inputs ≠ .reset image :: rest) ∧
     nextIs (step s) (fun t => t.keys == 0) = true) ∧
    (let s := { State.reset with run := .haltedForKey, inputs := [.tick 1 0x8000] }
     nextIs (step s) (fun t => t.keys != 0) = true) :=
  ⟨⟨rfl, rfl, fun _ _ => by simp, by decide⟩, by decide⟩

/-- SelfJumpIsFixedPoint: `1200` at 0x200. -/
theorem witness_self_jump :
    (let s := State.reset.withFetchWord 16 0x1200
     s.endsWell = true ∧ s.batch = none ∧ s.inputs = []) := by decide

/-- StoppedTimerStartsAfresh: 0 written to a running timer, and 10 to a stopped one. -/
theorem witness_stopped_timer :
    { State.reset with dt := 7, timerAcc := 9000 }.timerOperand 0 = 0 ∧ (withRegs [(5, 10)]).timerOperand 5 = 10 ∧
    (withRegs [(5, 10)]).dt = 0 := by decide

/-- MemoryReadsLastWrite: the last backed address and the first unbacked one. -/
theorem witness_memory : 0xFFE < State.reset.cfg.memSize ∧ State.reset.cfg.memSize ≤ 0xFFF := by decide

/-- CanonicalMemoriesAreEqual: two canonical memories built in different orders read alike. -/
theorem witness_canonical :
    (let m := Memory.write (Memory.write [] 0x300 1) 0x301 2
     let n := Memory.write (Memory.write [] 0x301 2) 0x300 1
     m.wf ∧ n.wf ∧ m = n) := by decide

/-- EveryStepKeepsInvariant. -/
theorem witness_invariant : State.reset.inv ∧ nextIs (step State.reset) (fun t => t.pc == 0x202) = true := by decide

end Sys2Proof.Tests
end

section
namespace Sys2Proof.Machine

/-- R63: a read in range after a write of `u` at `a` gives `u` at `a` itself and the old byte at every other address. -/
theorem memRead_after_write (a : Nat) (u : Byte) {b : Nat} {s : State} (hb : b < s.cfg.memSize) :
    memRead b { s with mem := s.mem.write a u } =
      .ok (if b = a then u else s.mem.read b) { s with mem := s.mem.write a u } := by
  rw [memRead_ok (s := { s with mem := s.mem.write a u }) hb, Memory.read_write]

/-- Settles O50: an access is decided by its address against `MEM_SIZE` alone, and a write in range changes one byte. -/
theorem memoryReadsLastWrite : Obligations.MemoryReadsLastWrite := by
  intro a b u s
  constructor
  · intro ha
    exact ⟨{ s with mem := s.mem.write a u }, memWrite_ok u ha, rfl, memRead_after_write a u⟩
  · intro ha
    exact ⟨memWrite_raised u ha, memRead_raised ha⟩

end Sys2Proof.Machine
end

section
/-! SUPPORT. Which part of the state an instruction may write (10_state.md R39), as a frame that each permitted update keeps. -/

namespace Sys2Proof.Machine

/-- What holds of the state an outcome is known to answer holds of its next state. -/
theorem holds_of_next {P : State → Prop} {o : Host.Outcome State Fault Refusal} {t u : State} (h : o = .next t)
    (ho : o = .next u) (hu : P u) : P t := by
  obtain rfl : u = t := Host.Outcome.next.inj (ho.symm.trans h)
  exact hu

/-! ### The frame of an instruction (R39) -/

/-- From `s` to `t` nothing changes but what instruction `ins` may write (R23, R26 to R29, R34, R35, R39). Memory that `ins` may not
write is the same list, not only the same bytes. -/
structure ExecFrame (ins : Instr) (s t : State) : Prop where
  fb : ins.writesFb = false → t.fb = s.fb
  sp : ins.writesSp = false → t.sp = s.sp
  i : ins.writesI = false → t.i = s.i
  mem : ins.writesMem = false → t.mem = s.mem
  pc : ins.writesPc = false → t.pc = s.pc
  delay : (∀ x, ins ≠ .ldDtVx x) → t.dt = s.dt ∧ t.timerAcc = s.timerAcc
  st : (∀ x, ins ≠ .ldStVx x) → t.st = s.st
  haltReg : (∀ x, ins ≠ .ldVxK x) → t.haltReg = s.haltReg
  v : ∀ r, ins.destination r = false → (r ≠ s.cfg.flagReg ∨ ins.writesFlag = false) → t.readV r = s.readV r
  run : t.run = s.run ∨ (∃ x, ins = .ldVxK x ∧ t.run = .haltedForKey) ∨ ∃ k, t.run = .fatal k
  draws : (∀ x kk, ins ≠ .rnd x kk) → t.draws = s.draws
  keys : t.keys = s.keys
  cycleAcc : t.cycleAcc = s.cycleAcc
  cfg : t.cfg = s.cfg
  batch : t.batch = s.batch
  inputs : t.inputs = s.inputs

namespace ExecFrame

variable {ins : Instr} {s t : State}

theorem refl (ins : Instr) (s : State) : ExecFrame ins s s where
  fb _ := rfl
  sp _ := rfl
  i _ := rfl
  mem _ := rfl
  pc _ := rfl
  delay _ := ⟨rfl, rfl⟩
  st _ := rfl
  haltReg _ := rfl
  v _ _ _ := rfl
  run := .inl rfl
  draws _ := rfl
  keys := rfl
  cycleAcc := rfl
  cfg := rfl
  batch := rfl
  inputs := rfl

/-! ### The updates a frame permits -/

theorem setFb (h : ExecFrame ins s t) (hw : ins.writesFb = true) (fb : Vector (BitVec 64) 32) :
    ExecFrame ins s { t with fb := fb } :=
  { h with fb := fun hn => absurd hw (by simp [hn]) }

theorem setSp (h : ExecFrame ins s t) (hw : ins.writesSp = true) (sp : Word) : ExecFrame ins s { t with sp := sp } :=
  { h with sp := fun hn => absurd hw (by simp [hn]) }

theorem setI (h : ExecFrame ins s t) (hw : ins.writesI = true) (w : Word) : ExecFrame ins s { t with i := w } :=
  { h with i := fun hn => absurd hw (by simp [hn]) }

theorem setMem (h : ExecFrame ins s t) (hw : ins.writesMem = true) (m : Memory) : ExecFrame ins s { t with mem := m } :=
  { h with mem := fun hn => absurd hw (by simp [hn]) }

theorem setPc (h : ExecFrame ins s t) (hw : ins.writesPc = true) (pc : Word) : ExecFrame ins s { t with pc := pc } :=
  { h with pc := fun hn => absurd hw (by simp [hn]) }

theorem skipIf (h : ExecFrame ins s t) (hw : ins.writesPc = true) (c : Bool) : ExecFrame ins s (t.skipIf c) := by
  cases c
  · exact h
  · exact h.setPc hw (t.pc + 2)

/-- Registers may change where each is a destination, or is VF and the instruction writes the flag. -/
theorem setV (h : ExecFrame ins s t) {v : Vector Byte 16}
    (hv : ∀ r, ins.destination r = false → (r ≠ s.cfg.flagReg ∨ ins.writesFlag = false) →
      State.readV { t with v := v } r = t.readV r) : ExecFrame ins s { t with v := v } :=
  { h with v := fun r hd hf => (hv r hd hf).trans (h.v r hd hf) }

theorem writeV (h : ExecFrame ins s t) {x : Reg} (hx : ins.destination x = true) (u : Byte) : ExecFrame ins s (t.writeV x u) :=
  h.setV fun r hd _ => (t.readV_writeV x r u).trans (if_neg fun e => by simp [e, hx] at hd)

theorem writeFlag (h : ExecFrame ins s t) (hw : ins.writesFlag = true) (u : Byte) :
    ExecFrame ins s (t.writeV t.cfg.flagReg u) :=
  h.setV fun r _ hf => (t.readV_writeV _ r u).trans (if_neg fun e => by simp [e, hw, h.cfg] at hf)

/-- A result and its flag, in either order (R140 (c)). -/
theorem writeResultAndFlag (h : ExecFrame ins s t) {x : Reg} (hx : ins.destination x = true) (hw : ins.writesFlag = true)
    (u : Byte) (f : Bool) : ExecFrame ins s (t.writeResultAndFlag x u f) := by
  unfold State.writeResultAndFlag
  cases t.cfg.flagOrder
  · exact (h.writeV hx u).writeFlag hw (flagByte f)
  · exact (h.writeFlag hw (flagByte f)).writeV hx u

theorem enterFatal (h : ExecFrame ins s t) (k : FatalKind) : ExecFrame ins s (t.enterFatal k) :=
  { h with run := .inr (.inr ⟨k, rfl⟩) }

theorem setDelayTimer (x : Reg) (s : State) (u : Byte) : ExecFrame (.ldDtVx x) s (s.setDelayTimer u) :=
  { refl _ s with delay := fun hn => absurd rfl (hn x) }

theorem setSt (x : Reg) (s : State) (u : Byte) : ExecFrame (.ldStVx x) s { s with st := u } :=
  { refl _ s with st := fun hn => absurd rfl (hn x) }

theorem haltForKey (x : Reg) (s : State) : ExecFrame (.ldVxK x) s (s.haltForKey x) :=
  { refl _ s with
    run := .inr (.inl ⟨x, rfl, rfl⟩)
    haltReg := fun hn => absurd rfl (hn x) }

theorem afterDraw (x : Reg) (kk : Byte) (s : State) : ExecFrame (.rnd x kk) s s.afterDraw :=
  { refl _ s with draws := fun hn => absurd rfl (hn x kk) }

end ExecFrame

/-- Every instruction keeps to its frame (R39). -/
theorem exec_frame {ins : Instr} {s t : State} (h : exec ins s = .next t) : ExecFrame ins s t := by
  have hr : ExecFrame ins s s := .refl ins s
  cases ins
  case cls => exact holds_of_next h rfl (hr.setFb rfl _)
  case ret =>
    rcases execRet_cases s with ⟨u, e, -⟩ | ⟨e, -⟩ | ⟨e, -⟩
    · exact holds_of_next h e ((hr.setSp rfl (s.sp + 2)).setPc rfl u)
    · exact holds_of_next h e (hr.enterFatal _)
    · exact holds_of_next h e (hr.enterFatal _)
  case jp | jpV0 => exact holds_of_next h rfl (hr.setPc rfl _)
  case call nnn =>
    rcases execCall_cases nnn s with ⟨e, -⟩ | ⟨-, m, e | ⟨e, -⟩, -⟩
    · exact holds_of_next h e (hr.enterFatal _)
    · exact holds_of_next h e (((hr.setMem rfl m).setSp rfl (s.sp - 2)).setPc rfl (zextAddress nnn))
    · exact holds_of_next h e (((hr.setMem rfl m).setSp rfl (s.sp - 2)).enterFatal .memRange)
  case seKk | sneKk | seVy | sneVy => exact holds_of_next h rfl (hr.skipIf rfl _)
  case skp x | sknp x =>
    refine holds_of_next h (skipOnKey_finish x _ s) ?_
    split
    · exact hr.enterFatal _
    · exact hr.skipIf rfl _
  case ldKk | addKk | ldVy | orVy | andVy | xorVy | ldVxDt =>
    exact holds_of_next h rfl (hr.writeV (beq_self_eq_true _) _)
  case rnd x kk => exact holds_of_next h rfl ((ExecFrame.afterDraw x kk s).writeV (beq_self_eq_true _) _)
  case addVy | subVy | shr | subnVy | shl =>
    exact holds_of_next h rfl (hr.writeResultAndFlag (beq_self_eq_true _) rfl _ _)
  case load x =>
    obtain ⟨u, hu, e, hv⟩ := execLoad_cases x s
    have hf : ExecFrame (.load x) s u := hu ▸ hr.setV fun r hd _ => hu ▸ hv r (of_decide_eq_false hd)
    rcases e with e | e
    · exact holds_of_next h e hf
    · exact holds_of_next h e (hf.enterFatal _)
  case drw x y n =>
    obtain ⟨u, hu, e, hv⟩ := execDrw_cases x y n s
    have hf : ExecFrame (.drw x y n) s u :=
      hu ▸ (hr.setV fun r _ hr => hv r (hr.resolve_right (by simp [Instr.writesFlag]))).setFb rfl u.fb
    rcases e with e | e
    · exact holds_of_next h e hf
    · exact holds_of_next h e (hf.enterFatal _)
  case ldI | addI | ldF => exact holds_of_next h rfl (hr.setI rfl _)
  case ldB x =>
    obtain ⟨m, e | e, -⟩ := storeBytes_finish_cases (s.transferAddress 0) (bcdDigits (s.readV x)) s
    · exact holds_of_next h e (hr.setMem rfl m)
    · exact holds_of_next h e ((hr.setMem rfl m).enterFatal _)
  case dump x =>
    obtain ⟨m, e | e, -⟩ := storeBytes_finish_cases (s.transferAddress 0) (s.valuesUpTo x) s
    · exact holds_of_next h e (hr.setMem rfl m)
    · exact holds_of_next h e ((hr.setMem rfl m).enterFatal _)
  case ldVxK x => exact holds_of_next h rfl (.haltForKey x s)
  case ldDtVx x => exact holds_of_next h rfl (.setDelayTimer x s _)
  case ldStVx x => exact holds_of_next h rfl (.setSt x s _)
  case unknown => exact holds_of_next h rfl hr

/-- Settles O12: the parts of the instruction's frame, the bytes of memory from the list that stays. -/
theorem instructionsWriteOnlyTheirState : Obligations.InstructionsWriteOnlyTheirState := by
  intro ins s t h
  have f := exec_frame h
  have hbytes : ins.writesMem = false → s.sameBytes t := fun hm a => by rw [f.mem hm]
  exact ⟨f.fb, f.sp, f.i, hbytes, f.pc, f.delay, f.st, f.haltReg, f.v, f.run, f.draws, f.keys, f.cycleAcc, f.cfg,
    f.batch, f.inputs⟩

end Sys2Proof.Machine
end

section
/-! SUPPORT. The canonical memory list, the state a reset leaves, and the invariant that every step keeps. -/

namespace Sys2Proof.Machine

/-! ### The canonical memory list (log 7) -/

/-- What a canonical list holds is what it reads as: its cells are the reads that differ from an unlisted address's. -/
theorem Memory.mem_iff_read {m : Memory} (h : m.wf) (c : Host.Cell) :
    c ∈ m ↔ m.read c.1 = c.2 ∧ c.2 ≠ Memory.background c.1 := by
  induction m with
  | nil => simpa using fun e : Memory.background c.1 = c.2 => e.symm
  | cons d m ih =>
    obtain ⟨a, u⟩ := c
    obtain ⟨b, t⟩ := d
    obtain ⟨hsorted, hlisted⟩ := h
    rw [List.pairwise_cons] at hsorted
    have ih := ih ⟨hsorted.2, fun e he => hlisted e (List.mem_cons_of_mem _ he)⟩
    have ht : t ≠ Memory.background b := hlisted (b, t) List.mem_cons_self
    rw [List.mem_cons, Memory.read_cons, ih]
    by_cases hab : a = b
    · subst hab
      have hnot : ¬ (Memory.read m a = u ∧ u ≠ Memory.background a) := fun hr => (hsorted.1 _ (ih.2 hr)).false
      simp only [hnot, or_false, if_true, Prod.mk.injEq, true_and]
      exact ⟨fun e => ⟨e.symm, e ▸ ht⟩, fun e => e.1.symm⟩
    · simp [hab]

/-- Settles O51: lists with the same cells in the same strict order are equal. -/
theorem canonicalMemoriesAreEqual : Obligations.CanonicalMemoriesAreEqual := by
  intro m n hm hn hread
  have hcells : ∀ c, c ∈ m ↔ c ∈ n := fun c => by
    rw [Memory.mem_iff_read hm, Memory.mem_iff_read hn, hread]
  exact List.Pairwise.eq_of_mem_iff hm.1 hn.1 hcells

/-! ### The invariant without the record of ticks -/

/-- The part of the invariant that does not speak of ticks: parameters, memory, stack pointer, timer. -/
structure State.Steady (s : State) : Prop where
  cfg : s.cfg.wf
  canonical : s.mem.wf
  backed : ∀ c ∈ s.mem, c.1 < s.cfg.memSize
  sp : s.spLegal
  timer : s.timerHeld

theorem State.inv_iff (s : State) : s.inv ↔ s.Steady ∧ (s.isFatal = true → s.batch = none) := by
  constructor
  · rintro ⟨hcfg, hcanon, hback, hsp, hbatch, htimer⟩
    exact ⟨⟨hcfg, hcanon, hback, hsp, htimer⟩, hbatch⟩
  · rintro ⟨⟨hcfg, hcanon, hback, hsp, htimer⟩, hbatch⟩
    exact ⟨hcfg, hcanon, hback, hsp, hbatch, htimer⟩

namespace State.Steady

variable {s t : State} {ins : Instr}

/-- It speaks of five fields only. -/
theorem congr (h : s.Steady) (hcfg : t.cfg = s.cfg) (hmem : t.mem = s.mem) (hsp : t.sp = s.sp) (hdt : t.dt = s.dt)
    (hacc : t.timerAcc = s.timerAcc) : t.Steady where
  cfg := by rw [hcfg]; exact h.cfg
  canonical := by rw [hmem]; exact h.canonical
  backed := by rw [hmem, hcfg]; exact h.backed
  sp := by simpa only [State.spLegal, hcfg, hsp] using h.sp
  timer := by simpa only [State.timerHeld, hdt, hacc] using h.timer

theorem setMem (h : s.Steady) {m : Memory} (hw : s.mem.wf → m.wf)
    (hb : (∀ c ∈ s.mem, c.1 < s.cfg.memSize) → ∀ c ∈ m, c.1 < s.cfg.memSize) : ({ s with mem := m } : State).Steady :=
  { h with canonical := hw h.canonical, backed := hb h.backed }

theorem setSp (h : s.Steady) {sp : Word} (hsp : ({ s with sp := sp } : State).spLegal) :
    ({ s with sp := sp } : State).Steady :=
  { h with sp := hsp }

/-- A slot taken leaves the stack pointer legal. -/
theorem spLegal_sub (h : s.Steady) (hfree : s.cfg.stackLow + 2 ≤ s.sp.toNat) :
    ({ s with sp := s.sp - 2 } : State).spLegal := by
  obtain ⟨hlow, htop, heven⟩ := h.sp
  have hsub : (s.sp - 2).toNat = s.sp.toNat - 2 :=
    BitVec.toNat_sub_of_le (BitVec.le_def.2 (le_trans (Nat.le_add_left 2 _) hfree))
  simp only [State.spLegal, hsub]
  omega

/-- A slot freed leaves the stack pointer legal. -/
theorem spLegal_add (h : s.Steady) (hused : s.sp.toNat + 2 ≤ s.cfg.stackTop) :
    ({ s with sp := s.sp + 2 } : State).spLegal := by
  obtain ⟨hlow, htop, heven⟩ := h.sp
  have htop' := Config.stackTop_of_fixedRows h.cfg.1
  have hadd : (s.sp + 2).toNat = s.sp.toNat + 2 := by
    rw [BitVec.toNat_add_of_lt] <;> simp; omega
  simp only [State.spLegal, hadd]
  omega

/-! ### Instructions keep it -/

/-- An instruction that may write none of the five fields keeps it, by its frame. -/
theorem of_frame (h : s.Steady) (f : ExecFrame ins s t) (hsp : ins.writesSp = false) (hmem : ins.writesMem = false)
    (hdt : ∀ x, ins ≠ .ldDtVx x) : t.Steady :=
  h.congr f.cfg (f.mem hmem) (f.sp hsp) (f.delay hdt).1 (f.delay hdt).2

/-- A store keeps it, in range or not. -/
protected theorem storeBytes (h : s.Steady) (a : Nat) (bytes : List Byte) (ht : (storeBytes a bytes s).finish = .next t) :
    t.Steady := by
  obtain ⟨m, e | e, hw, hb⟩ := storeBytes_finish_cases a bytes s
  · exact holds_of_next ht e (h.setMem hw hb)
  · exact holds_of_next ht e ((h.setMem hw hb).congr rfl rfl rfl rfl rfl)

/-- Every instruction keeps it. -/
protected theorem exec (h : s.Steady) (ht : exec ins s = .next t) : t.Steady := by
  cases ins
  case ret =>
    rcases execRet_cases s with ⟨u, e, hused⟩ | ⟨e, -⟩ | ⟨e, -⟩
    · exact holds_of_next ht e ((h.setSp (h.spLegal_add hused)).congr rfl rfl rfl rfl rfl)
    · exact holds_of_next ht e (h.congr rfl rfl rfl rfl rfl)
    · exact holds_of_next ht e (h.congr rfl rfl rfl rfl rfl)
  case call nnn =>
    rcases execCall_cases nnn s with ⟨e, -⟩ | ⟨hfree, m, e, hw, hb⟩
    · exact holds_of_next ht e (h.congr rfl rfl rfl rfl rfl)
    · have hpushed := (h.setSp (h.spLegal_sub hfree)).setMem hw hb
      rcases e with e | ⟨e, -⟩
      · exact holds_of_next ht e (hpushed.congr rfl rfl rfl rfl rfl)
      · exact holds_of_next ht e (hpushed.congr rfl rfl rfl rfl rfl)
  case ldB x => exact h.storeBytes _ _ ht
  case dump x => exact h.storeBytes _ _ ht
  case ldDtVx x => exact holds_of_next ht rfl { h with timer := s.setDelayTimer_held _ }
  all_goals exact h.of_frame (exec_frame ht) rfl rfl (by simp)

end State.Steady

/-! ### One instruction step (R95) -/

/-- Every end of an instruction step: an instruction run with `PC` advanced, or a fetch that raises. -/
theorem instrStep_cases {s t : State} (h : instrStep s = .next t) :
    (∃ ins, exec ins s.advancePc = .next t) ∨ t = s.enterFatal .memRange := by
  by_cases hp : s.pc.toNat + 1 < s.cfg.memSize
  · rw [instrStep, fetch_ok hp] at h
    exact .inl ⟨_, h⟩
  · rw [instrStep, fetch_raised (Nat.not_lt.1 hp)] at h
    exact .inr (Host.Outcome.next.inj h).symm

theorem State.Steady.instrStep {s t : State} (h : s.Steady) (ht : instrStep s = .next t) : t.Steady := by
  rcases instrStep_cases ht with ⟨ins, e⟩ | rfl
  · exact (h.congr (t := s.advancePc) rfl rfl rfl rfl rfl).exec e
  · exact h.congr rfl rfl rfl rfl rfl

/-- An instruction step leaves the keypad sample and the record of ticks alone (R35). -/
theorem instrStep_keys_batch {s t : State} (h : instrStep s = .next t) : t.keys = s.keys ∧ t.batch = s.batch := by
  rcases instrStep_cases h with ⟨ins, e⟩ | rfl
  · exact ⟨(exec_frame e).keys, (exec_frame e).batch⟩
  · exact ⟨rfl, rfl⟩

/-! ### What a step can do -/

/-- What one step of the machine can do from `s` (R273 to R277, R285, R302). -/
inductive StepEvent (s : State) : State → Prop where
  /-- A reset lands, between ticks or in FATAL (log 12). -/
  | reset (image : List Byte) (rest : List Input) : s.isFatal = true ∨ s.batch = none → s.inputs = .reset image :: rest →
      StepEvent s (s.resetEvent image rest)
  /-- A tick passes in FATAL with nothing moved (R261). -/
  | fatalTick (elapsed : Nat) (keys : BitVec 16) (rest : List Input) :
      s.isFatal = true → s.inputs = .tick elapsed keys :: rest → StepEvent s { s with inputs := rest }
  /-- A tick starts. -/
  | beginTick (elapsed : Nat) (keys : BitVec 16) (rest : List Input) :
      s.isFatal = false → s.batch = none → s.inputs = .tick elapsed keys :: rest →
      StepEvent s (beginTick elapsed keys { s with inputs := rest })
  /-- An instruction of the batch of a tick (R273). -/
  | batchInstr (elapsed : Nat) (u : State) : s.batch = some elapsed → batchGoes s = true → instrStep s = .next u →
      StepEvent s (closeIfFatal (deduct u))
  /-- A tick whose batch is over ends (R274, R277). -/
  | endTick (elapsed : Nat) : s.isFatal = false → s.batch = some elapsed → batchGoes s = false →
      StepEvent s (endTick elapsed s)
  /-- An instruction with no tick in progress and no input at hand (log 3). -/
  | instr (t : State) : s.run = .running → s.batch = none → s.inputs = [] → instrStep s = .next t → StepEvent s t
  /-- The resume with no tick in progress and no input at hand (log 11). -/
  | resume : s.run = .haltedForKey → s.batch = none → s.inputs = [] → StepEvent s s.resumeIfKey

theorem isFatal_eq_true_iff (s : State) : s.isFatal = true ↔ ∃ k, s.run = .fatal k := by
  unfold State.isFatal
  cases s.run <;> simp

theorem stepEvent_of_abortedStep {k : FatalKind} {s t : State} (hf : s.isFatal = true) (h : abortedStep k s = .next t) :
    StepEvent s t := by
  unfold abortedStep at h
  split at h
  next image rest hi => cases h; exact .reset image rest (.inl hf) hi
  next elapsed keys rest hi => cases h; exact .fatalTick elapsed keys rest hf hi
  next => cases h

theorem stepEvent_of_freeStep {s t : State} (hb : s.batch = none) (hi : s.inputs = []) (h : freeStep s = .next t) :
    StepEvent s t := by
  unfold freeStep at h
  split at h
  next hr => exact .instr t hr hb hi h
  next hr => cases h; exact .resume hr hb hi
  next => cases h

theorem stepEvent_of_batchInstr {elapsed : Nat} {s t : State} (hb : s.batch = some elapsed) (hg : batchGoes s = true)
    (h : batchInstr s = .next t) : StepEvent s t := by
  unfold batchInstr at h
  split at h
  next u hu => cases h; exact .batchInstr elapsed u hb hg hu
  next => cases h
  next => cases h

theorem stepEvent_of_liveStep {s t : State} (hf : s.isFatal = false) (h : liveStep s = .next t) : StepEvent s t := by
  unfold liveStep at h
  split at h
  next elapsed hb =>
    split at h
    next hg => exact stepEvent_of_batchInstr hb hg h
    next hg => cases h; exact .endTick elapsed hf hb (Bool.eq_false_of_not_eq_true hg)
  next hb =>
    split at h
    next elapsed keys rest hi => cases h; exact .beginTick elapsed keys rest hf hb hi
    next image rest hi => cases h; exact .reset image rest (.inr hb) hi
    next hi => exact stepEvent_of_freeStep hb hi h

/-- Every step with a next state is one of the events. -/
theorem stepEvent_of_step {s t : State} (h : step s = .next t) : StepEvent s t := by
  cases hf : s.isFatal
  · exact stepEvent_of_liveStep hf ((step_live hf).symm.trans h)
  · obtain ⟨k, hk⟩ := (isFatal_eq_true_iff s).1 hf
    have e : step s = abortedStep k s := by simp only [step, machineStep, hk]
    exact stepEvent_of_abortedStep hf (e.symm.trans h)

/-! ### The keypad sample (R35, R314) -/

/-- The start of a tick takes the tick's sample. -/
theorem beginTick_keys (elapsed : Nat) (keys : BitVec 16) (s : State) : (beginTick elapsed keys s).keys = keys := by
  unfold beginTick
  dsimp only
  split
  · exact State.resumeIfKey_keys _
  · rfl

theorem endTick_keys (elapsed : Nat) (s : State) : (endTick elapsed s).keys = s.keys := by
  show (discardIfHalted s).keys = s.keys
  rw [discardIfHalted_eq]

/-- Settles O47: of the events of a step only a reset and the start of a tick write `KEYS`. -/
theorem keysChangeOnlyAtTickStart : Obligations.KeysChangeOnlyAtTickStart := by
  intro s t h hne
  cases stepEvent_of_step h with
  | reset image rest _ hi => exact .inr ⟨image, rest, hi⟩
  | beginTick elapsed keys rest hf hb hi => exact .inl ⟨elapsed, rest, hb, by rw [beginTick_keys]; exact hi⟩
  | fatalTick => exact absurd rfl hne
  | batchInstr elapsed u hb hg hu =>
    rw [closeIfFatal_eq] at hne
    exact absurd (instrStep_keys_batch hu).1 hne
  | endTick elapsed => exact absurd (endTick_keys elapsed s) hne
  | instr _ hr hb hi hu => exact absurd (instrStep_keys_batch hu).1 hne
  | resume => exact absurd s.resumeIfKey_keys hne

/-! ### Reset (R38, R300 to R304) -/

/-- An address past the font's table reads 0 when it is not listed. -/
theorem Memory.background_eq_zero {a : Nat} (h : 80 ≤ a) : Memory.background a = 0 :=
  List.getD_eq_default _ _ h

/-- Every byte of memory after a reset with an image that fits: the font, then the image, 0 elsewhere (R38, R304). -/
theorem State.read_resetWith {c : Config} {image : List Byte} (hc : c.fixedRows)
    (h : image.length ≤ c.memSize - c.programStart) (a : Nat) :
    (State.resetWith c image).mem.read a =
      if a < 80 then c.font.getD a 0 else if 0x200 ≤ a then image.getD (a - 0x200) 0 else 0 := by
  rw [State.resetWith_fits h, Memory.read_place, State.read_initial, Config.programStart_of_fixedRows hc,
    Config.fontBase_of_fixedRows hc, Config.font_length_of_fixedRows hc]
  by_cases hfont : a < 80
  · rw [if_neg (by omega : ¬ (0x200 ≤ a ∧ a < 0x200 + image.length)), if_pos (by omega : 0 ≤ a ∧ a < 0 + 80),
      if_pos hfont, Nat.sub_zero]
  · rw [if_neg (by omega : ¬ (0 ≤ a ∧ a < 0 + 80)), if_neg hfont, Memory.background_eq_zero (Nat.not_lt.1 hfont)]
    by_cases himage : 0x200 ≤ a ∧ a < 0x200 + image.length
    · rw [if_pos himage, if_pos himage.1]
    · rw [if_neg himage]
      split
      · exact (List.getD_eq_default _ _ (by omega)).symm
      · rfl

/-- Settles O1: only memory is written after the reset values stand. -/
theorem resetEstablishesEveryValue : Obligations.ResetEstablishesEveryValue := by
  intro c image hc h
  rw [← Config.programStart_of_fixedRows hc] at h
  have hpc : (State.initial c).pc = 0x200 := by rw [State.initial_pc, Config.programStart_of_fixedRows hc]; rfl
  have hsp : (State.initial c).sp = 0x200 := by rw [State.initial_sp, Config.stackTop_of_fixedRows hc]; rfl
  have hmem := State.read_resetWith hc h
  rw [State.resetWith_fits h] at hmem ⊢
  exact ⟨_, rfl, State.readV_initial c, rfl, hpc, hsp, rfl, rfl, rfl, rfl, hmem, State.cell_initial c,
    fun k => BitVec.getLsbD_zero, rfl, rfl, rfl⟩

/-- The state before the image is copied. -/
theorem State.Steady.initial {c : Config} (h : c.wf) : (State.initial c).Steady where
  cfg := h
  canonical := State.wf_initial c
  backed := by
    obtain ⟨hrows, htop, -⟩ := h
    refine Memory.bounded_place _ _ _ ?_ (by simp)
    rw [Config.fontBase_of_fixedRows hrows, Config.font_length_of_fixedRows hrows]
    rw [Config.stackTop_of_fixedRows hrows] at htop
    show 0 + 80 ≤ c.memSize
    omega
  sp := by
    simp [State.spLegal, Config.stackLow_of_fixedRows h.1, Config.stackTop_of_fixedRows h.1]
  timer _ := rfl

theorem State.Steady.resetWith {c : Config} (h : c.wf) (image : List Byte) : (State.resetWith c image).Steady := by
  by_cases himage : image.length ≤ c.memSize - c.programStart
  · rw [State.resetWith_fits himage]
    have htop := h.2.1
    refine (State.Steady.initial h).setMem (Memory.wf_place _ _ _) (Memory.bounded_place _ _ _ ?_)
    rw [Config.stackTop_of_fixedRows h.1, ← Config.programStart_of_fixedRows h.1] at htop
    show c.programStart + image.length ≤ c.memSize
    omega
  · have e : State.resetWith c image = (State.initial c).enterFatal .imageTooLarge := if_pos (Nat.not_le.1 himage)
    rw [e]
    exact (State.Steady.initial h).congr rfl rfl rfl rfl rfl

/-- A reset leaves no tick in progress. -/
theorem State.resetWith_batch (c : Config) (image : List Byte) : (State.resetWith c image).batch = none := by
  unfold State.resetWith
  dsimp only
  split <;> rfl

theorem State.inv_resetWith {c : Config} (h : c.wf) (image : List Byte) : (State.resetWith c image).inv :=
  (State.inv_iff _).2 ⟨.resetWith h image, fun _ => State.resetWith_batch c image⟩

/-- Settles O3: the reset state is the reset with the empty image under the values of R7. -/
theorem resetMeetsInvariant : Obligations.ResetMeetsInvariant := by
  have hreset : State.resetWith Config.documented [] = State.reset :=
    (State.resetWith_fits (Nat.zero_le _)).trans State.initial_documented
  exact ⟨hreset ▸ State.inv_resetWith Config.documented_wf [], fun c image h => State.inv_resetWith h image⟩

/-! ### Every event keeps the invariant -/

/-- The timer update keeps it: the accumulator of a stopped timer is cleared (R271). -/
theorem State.Steady.timerUpdate {s : State} (h : s.Steady) (elapsed : Nat) : (timerUpdate elapsed s).Steady :=
  { h with timer := timerUpdate_held elapsed s }

theorem State.Steady.resumeIfKey {s : State} (h : s.Steady) : s.resumeIfKey.Steady :=
  h.congr (by simp) (by simp) (by simp) (by simp) (by simp)

/-- A core that waits for a key has not aborted after the resume. -/
theorem isFatal_resumeIfKey {s : State} (h : s.isFatal = false) : s.resumeIfKey.isFatal = false := by
  unfold State.resumeIfKey
  split
  · rfl
  · exact h

theorem State.Steady.beginTick {s : State} (h : s.Steady) (elapsed : Nat) (keys : BitVec 16) :
    (beginTick elapsed keys s).Steady := by
  unfold Machine.beginTick
  dsimp only
  split
  · refine State.Steady.timerUpdate (State.Steady.resumeIfKey ?_) elapsed
    exact h.congr rfl rfl rfl rfl rfl
  · exact h.congr rfl rfl rfl rfl rfl

theorem isFatal_beginTick {s : State} (h : s.isFatal = false) (elapsed : Nat) (keys : BitVec 16) :
    (beginTick elapsed keys s).isFatal = false := by
  unfold beginTick
  dsimp only
  split
  · rw [haltedTick, isFatal_timerUpdate]
    exact isFatal_resumeIfKey h
  · exact h

theorem closeIfFatal_batch {s : State} (h : (closeIfFatal s).isFatal = true) : (closeIfFatal s).batch = none := by
  unfold closeIfFatal at h ⊢
  split at h
  · next hs => rw [if_pos hs]
  · next hs => exact absurd h hs

/-- Settles O52: event by event. -/
theorem everyStepKeepsInvariant : Obligations.EveryStepKeepsInvariant := by
  intro s t hs h
  obtain ⟨hsteady, hbatch⟩ := (State.inv_iff s).1 hs
  rw [State.inv_iff]
  cases stepEvent_of_step h with
  | reset image rest =>
    have hreset := State.Steady.resetWith hsteady.cfg image
    exact ⟨hreset.congr rfl rfl rfl rfl rfl, fun _ => State.resetWith_batch s.cfg image⟩
  | fatalTick elapsed keys rest hf => exact ⟨hsteady.congr rfl rfl rfl rfl rfl, fun _ => hbatch hf⟩
  | beginTick elapsed keys rest hf =>
    have hlanded : ({ s with inputs := rest } : State).Steady := hsteady.congr rfl rfl rfl rfl rfl
    have hlive := isFatal_beginTick (s := { s with inputs := rest }) hf elapsed keys
    exact ⟨hlanded.beginTick elapsed keys, fun hfatal => absurd hfatal (ne_true_of_eq_false hlive)⟩
  | batchInstr elapsed u hb hg hu =>
    refine ⟨?_, closeIfFatal_batch⟩
    rw [closeIfFatal_eq]
    exact (hsteady.instrStep hu).congr rfl rfl rfl rfl rfl
  | endTick elapsed =>
    have hdiscarded : (discardIfHalted s).Steady := by
      rw [discardIfHalted_eq]
      exact hsteady.congr rfl rfl rfl rfl rfl
    exact ⟨(hdiscarded.timerUpdate elapsed).congr rfl rfl rfl rfl rfl, fun _ => rfl⟩
  | instr _ hr hb hi hu => exact ⟨hsteady.instrStep hu, fun _ => (instrStep_keys_batch hu).2.trans hb⟩
  | resume hr hb => exact ⟨hsteady.resumeIfKey, fun _ => s.resumeIfKey_batch.trans hb⟩

end Sys2Proof.Machine
end

section
/-! SUPPORT. CALL and RET where they succeed and where CALL overflows (40_control_flow.md R111, R113), and runs of them over the
stack of 20_memory.md R58, R59. -/

namespace Sys2Proof.Machine

/-! ### One instruction -/

/-- The state a CALL with a slot free leaves (R58, R113). -/
def State.afterCall (s : State) (nnn : Imm12) : State :=
  { s with
    pc := zextAddress nnn
    sp := s.sp - 2
    mem := (s.mem.write (s.sp.toNat - 2) (highByte s.pc)).write (s.sp.toNat - 1) (lowByte s.pc) }

@[simp] theorem State.afterCall_run (s : State) (nnn : Imm12) : (s.afterCall nnn).run = s.run := rfl

@[simp] theorem State.afterCall_cfg (s : State) (nnn : Imm12) : (s.afterCall nnn).cfg = s.cfg := rfl

theorem State.afterCall_sp (s : State) (nnn : Imm12) : (s.afterCall nnn).sp = s.sp - 2 := rfl

theorem State.afterCall_sp_toNat {s : State} (h : 2 ≤ s.sp.toNat) (nnn : Imm12) :
    (s.afterCall nnn).sp.toNat = s.sp.toNat - 2 :=
  BitVec.toNat_sub_of_le (BitVec.le_def.2 h)

/-- The bytes after a CALL: the pushed slot holds the return address, high byte first. -/
theorem State.read_afterCall (s : State) (nnn : Imm12) (a : Nat) :
    (s.afterCall nnn).mem.read a =
      if a = s.sp.toNat - 1 then lowByte s.pc else if a = s.sp.toNat - 2 then highByte s.pc else s.mem.read a := by
  simp only [State.afterCall, Memory.read_write]

section
variable {s : State}

/-- CALL with a slot free (R113). -/
theorem exec_call_ok (hc : s.cfg.wf) (hfree : 0x1E2 ≤ s.sp.toNat) (htop : s.sp.toNat ≤ 0x200) (nnn : Imm12) :
    exec (.call nnn) s = .next (s.afterCall nnn) := by
  have hslot : s.cfg.stackLow + 2 ≤ s.sp.toNat := by rwa [Config.stackLow_of_fixedRows hc.1]
  have hbacked : s.sp.toNat ≤ s.cfg.memSize := by
    obtain ⟨hrows, hstack, -⟩ := hc
    rw [Config.stackTop_of_fixedRows hrows] at hstack
    exact htop.trans hstack
  show execCall nnn s = _
  rw [execCall, push_ok hslot hbacked]
  rfl

/-- CALL with no slot free (R58, R113). -/
theorem exec_call_overflow (hc : s.cfg.wf) (hfull : s.sp.toNat < 0x1E2) (nnn : Imm12) :
    exec (.call nnn) s = .next (s.enterFatal .stackOverflow) := by
  have hslot : s.sp.toNat < s.cfg.stackLow + 2 := by rwa [Config.stackLow_of_fixedRows hc.1]
  show execCall nnn s = _
  rw [execCall, push_overflow hslot]
  rfl

/-- RET with a slot in use (R111). -/
theorem exec_ret_ok (hc : s.cfg.wf) (hused : s.sp.toNat + 2 ≤ 0x200) :
    exec .ret s = .next { s with
      pc := joinBytes (s.mem.read s.sp.toNat) (s.mem.read (s.sp.toNat + 1))
      sp := s.sp + 2 } := by
  obtain ⟨hrows, hstack, -⟩ := hc
  rw [← Config.stackTop_of_fixedRows hrows] at hused
  show execRet s = _
  rw [execRet, pop_ok hused (by omega)]
  rfl

/-- RET right after a CALL that pushed: `PC` and `SP` as before the CALL (R58, R59). -/
theorem exec_ret_afterCall (hc : s.cfg.wf) (hfree : 0x1E2 ≤ s.sp.toNat) (htop : s.sp.toNat ≤ 0x200) (nnn : Imm12) :
    exec .ret (s.afterCall nnn) = .next { s with mem := (s.afterCall nnn).mem } := by
  have hsp : (s.afterCall nnn).sp.toNat = s.sp.toNat - 2 := State.afterCall_sp_toNat (by omega) nnn
  have hhigh : (s.afterCall nnn).mem.read (s.sp.toNat - 2) = highByte s.pc := by
    rw [State.read_afterCall, if_neg (by omega), if_pos rfl]
  have hlow : (s.afterCall nnn).mem.read (s.sp.toNat - 2 + 1) = lowByte s.pc := by
    rw [State.read_afterCall, if_pos (by omega)]
  rw [exec_ret_ok (s := s.afterCall nnn) hc (by omega), hsp, hhigh, hlow, joinBytes_high_low, State.afterCall_sp,
    BitVec.sub_add_cancel]
  rfl

end

/-! ### Runs of several instructions -/

theorem execAll_cons {ins : Instr} {s t : State} (h : exec ins s = .next t) (rest : List Instr) :
    execAll (ins :: rest) s = execAll rest t := by
  rw [execAll, h]

/-- Settles O16: the RET pops what the CALL pushed. -/
theorem callThenReturnRestores : Obligations.CallThenReturnRestores := by
  intro nnn s hc hfree htop
  refine ⟨{ s with mem := (s.afterCall nnn).mem }, ?_, rfl, ?_⟩
  · rw [execAll_cons (exec_call_ok hc hfree htop nnn), execAll_cons (exec_ret_afterCall hc hfree htop nnn)]
    rfl
  · intro a ha
    show (s.afterCall nnn).mem.read a = s.mem.read a
    rw [State.read_afterCall, if_neg (by omega), if_neg (by omega)]

/-- Calls with a slot free for each of them succeed and take one slot each (R58). -/
theorem execAll_calls (targets : List Imm12) (s : State) (hc : s.cfg.wf) (htop : s.sp.toNat ≤ 0x200)
    (hfree : 0x1E0 + 2 * targets.length ≤ s.sp.toNat) :
    ∃ t, execAll (targets.map .call) s = .next t ∧ t.cfg = s.cfg ∧ t.run = s.run ∧
      t.sp.toNat + 2 * targets.length = s.sp.toNat := by
  induction targets generalizing s with
  | nil => exact ⟨s, rfl, rfl, rfl, rfl⟩
  | cons nnn rest ih =>
    rw [List.length_cons] at hfree
    have hsp : (s.afterCall nnn).sp.toNat = s.sp.toNat - 2 := State.afterCall_sp_toNat (by omega) nnn
    obtain ⟨t, hrun, hcfg, hstate, hslots⟩ := ih (s.afterCall nnn) hc (by omega) (by omega)
    refine ⟨t, ?_, hcfg.trans (s.afterCall_cfg nnn), hstate.trans (s.afterCall_run nnn), ?_⟩
    · rw [List.map_cons, execAll_cons (exec_call_ok hc (by omega) htop nnn), hrun]
    · rw [List.length_cons]
      omega

/-- Settles O17: sixteen slots of two bytes take `SP` from 0x200 to `STACK_LOW`, where no slot is free. -/
theorem sixteenCallsThenOverflow : Obligations.SixteenCallsThenOverflow := by
  intro s targets hc hrunning hempty hlength
  have htop : s.sp.toNat = 0x200 := by rw [hempty]; rfl
  obtain ⟨t, hrun, hcfg, hstate, hslots⟩ := execAll_calls targets s hc (by omega) (by omega)
  have hlow : t.sp.toNat = 0x1E0 := by omega
  exact ⟨t, hrun, hstate.trans hrunning, BitVec.eq_of_toNat_eq hlow,
    exec_call_overflow (hcfg ▸ hc) (by omega)⟩

end Sys2Proof.Machine
end

section
/-! SUPPORT. The catalogue and the UNKNOWN space by the nibbles of a word (30_encoding.md R84, R86), and the round trips of
decoder and encoder. -/

namespace Sys2Proof

/-! ### Which words fit a row of the table

Each mask keeps some of the fields a word is packed from, so a row fits by comparing those fields as numbers. -/

/-- The mask of the rows keyed by the leading nibble. -/
theorem and_leading (w : Word) : w &&& 0xF000#16 = packNnn (nibble3 w) 0 := by
  apply BitVec.eq_of_getLsbD_eq
  intro i hi
  simp only [packNnn, nibble3, BitVec.getLsbD_and, BitVec.getLsbD_append, BitVec.getLsbD_extractLsb']
  interval_cases i <;> simp

/-- The mask of the rows keyed by the leading and the last nibble. -/
theorem and_leading_last (w : Word) : w &&& 0xF00F#16 = packXyn (nibble3 w) 0 0 (nibble0 w) := by
  apply BitVec.eq_of_getLsbD_eq
  intro i hi
  simp only [packXyn, nibble3, nibble0, BitVec.getLsbD_and, BitVec.getLsbD_append, BitVec.getLsbD_extractLsb']
  interval_cases i <;> simp [nibbleOfReg]

/-- The mask of the rows keyed by the leading nibble and the trailing byte. -/
theorem and_leading_trailing (w : Word) : w &&& 0xF0FF#16 = packXkk (nibble3 w) 0 (lowByte w) := by
  apply BitVec.eq_of_getLsbD_eq
  intro i hi
  simp only [packXkk, nibble3, lowByte, BitVec.getLsbD_and, BitVec.getLsbD_append, BitVec.getLsbD_extractLsb']
  interval_cases i <;> simp [nibbleOfReg]

theorem fits_all (w b : Word) : (OpRow.mk 0xFFFF#16 b).fits w = true ↔ w.toNat = b.toNat := by
  rw [OpRow.fits, beq_iff_eq, ← BitVec.toNat_inj, show 0xFFFF#16 = BitVec.allOnes 16 from rfl, BitVec.and_allOnes]

theorem fits_leading (w b : Word) : (OpRow.mk 0xF000#16 b).fits w = true ↔ 0x1000 * (w.toNat / 0x1000) = b.toNat := by
  rw [OpRow.fits, beq_iff_eq, and_leading, ← BitVec.toNat_inj, packNnn_toNat, nibble3_toNat]
  rfl

theorem fits_leading_last (w b : Word) :
    (OpRow.mk 0xF00F#16 b).fits w = true ↔ 0x1000 * (w.toNat / 0x1000) + w.toNat % 0x10 = b.toNat := by
  rw [OpRow.fits, beq_iff_eq, and_leading_last, ← BitVec.toNat_inj, packXyn_toNat, nibble3_toNat, nibble0_toNat]
  rfl

theorem fits_leading_trailing (w b : Word) :
    (OpRow.mk 0xF0FF#16 b).fits w = true ↔ 0x1000 * (w.toNat / 0x1000) + w.toNat % 0x100 = b.toNat := by
  rw [OpRow.fits, beq_iff_eq, and_leading_trailing, ← BitVec.toNat_inj, packXkk_toNat, nibble3_toNat, trailing_toNat]
  rfl

/-! ### The catalogue by the nibbles of the word -/

theorem any_plainRows (w : Word) : plainRows.any (fun r => r.fits w) = true ↔
    w.toNat = 0x00E0 ∨ w.toNat = 0x00EE ∨ w.toNat / 0x1000 ∈ [1, 2, 3, 4, 6, 7, 0xA, 0xC, 0xD] := by
  simp only [plainRows, List.any_cons, List.any_nil, Bool.or_eq_true, Bool.false_eq_true, or_false, fits_all,
    fits_leading, BitVec.ofNat_eq_ofNat, BitVec.reduceToNat, List.mem_cons, List.not_mem_nil]
  omega

theorem any_registerRows (w : Word) : registerRows.any (fun r => r.fits w) = true ↔
    (w.toNat / 0x1000 = 5 ∨ w.toNat / 0x1000 = 9) ∧ w.toNat % 0x10 = 0 ∨
    w.toNat / 0x1000 = 8 ∧ (w.toNat % 0x10 < 8 ∨ w.toNat % 0x10 = 0xE) := by
  simp only [registerRows, List.any_cons, List.any_nil, Bool.or_eq_true, Bool.false_eq_true, or_false, fits_leading_last,
    BitVec.ofNat_eq_ofNat, BitVec.reduceToNat]
  omega

theorem any_trailingRows (w : Word) : trailingRows.any (fun r => r.fits w) = true ↔
    w.toNat / 0x1000 = 0xE ∧ (w.toNat % 0x100 = 0x9E ∨ w.toNat % 0x100 = 0xA1) ∨
    w.toNat / 0x1000 = 0xF ∧ w.toNat % 0x100 ∈ [0x07, 0x0A, 0x15, 0x18, 0x1E, 0x29, 0x33, 0x55, 0x65] := by
  simp only [trailingRows, List.any_cons, List.any_nil, Bool.or_eq_true, Bool.false_eq_true, or_false,
    fits_leading_trailing, BitVec.ofNat_eq_ofNat, BitVec.reduceToNat, List.mem_cons, List.not_mem_nil]
  omega

theorem any_jumpV0Rows (m : BnnnMode) (w : Word) : (jumpV0Rows m).any (fun r => r.fits w) = true ↔
    m = .jumpV0 ∧ w.toNat / 0x1000 = 0xB := by
  cases m
  · simp [jumpV0Rows]
  · simp only [jumpV0Rows, List.any_cons, List.any_nil, Bool.or_eq_true, Bool.false_eq_true, or_false, true_and,
      fits_leading, BitVec.ofNat_eq_ofNat, BitVec.reduceToNat]
    omega

/-! ### The UNKNOWN space by family -/

theorem decodeFamily0_eq_unknown_iff (w : Word) :
    decodeFamily0 w = .unknown w ↔ w.toNat ≠ 0x00E0 ∧ w.toNat ≠ 0x00EE := by
  have hcls : w = 0x00E0#16 ↔ w.toNat = 0x00E0 := BitVec.toNat_inj.symm
  have hret : w = 0x00EE#16 ↔ w.toNat = 0x00EE := BitVec.toNat_inj.symm
  unfold decodeFamily0
  split
  · simp_all
  · split <;> simp_all

theorem decodeFamily8_eq_unknown_iff (w : Word) (x y : Reg) :
    decodeFamily8 w x y = .unknown w ↔ 8 ≤ w.toNat % 0x10 ∧ w.toNat % 0x10 ≠ 0xE := by
  rw [← nibble0_toNat]
  unfold decodeFamily8
  generalize nibble0 w = n
  split
  case h_10 =>
    simp_all [← BitVec.toNat_inj]
    omega
  all_goals simp

theorem decodeFamilyE_eq_unknown_iff (w : Word) (x : Reg) :
    decodeFamilyE w x = .unknown w ↔ w.toNat % 0x100 ≠ 0x9E ∧ w.toNat % 0x100 ≠ 0xA1 := by
  rw [← trailing_toNat]
  unfold decodeFamilyE
  generalize lowByte w = kk
  split
  case h_3 => simp_all [← BitVec.toNat_inj]
  all_goals simp

theorem decodeFamilyF_eq_unknown_iff (w : Word) (x : Reg) :
    decodeFamilyF w x = .unknown w ↔
      w.toNat % 0x100 ∉ [0x07, 0x0A, 0x15, 0x18, 0x1E, 0x29, 0x33, 0x55, 0x65] := by
  rw [← trailing_toNat]
  unfold decodeFamilyF
  generalize lowByte w = kk
  split
  case h_10 => simp_all [← BitVec.toNat_inj]
  all_goals simp

/-- Settles O6, one leading nibble after another: each arm of the decoder against the line R86 has for its family. -/
theorem unknownSpaceByNibbles : Obligations.UnknownSpaceByNibbles := by
  intro m w
  have hn : nibble0 w = 0x0#4 ↔ w.toNat % 0x10 = 0 := by rw [← nibble0_toNat, ← BitVec.toNat_inj]; rfl
  unfold decode
  rw [← nibble3_toNat]
  generalize nibble3 w = op
  split
  case h_12 => cases m <;> simp -- Bnnn
  case h_16 => -- family F, the arm of every other leading nibble
    obtain rfl : op = 0xF#4 := by revert op; decide
    simp [decodeFamilyF_eq_unknown_iff]
  all_goals simp [hn, decodeFamily0_eq_unknown_iff, decodeFamily8_eq_unknown_iff, decodeFamilyE_eq_unknown_iff]

/-- What decodes to UNKNOWN lies outside the catalogue, and the other way round. -/
theorem decode_eq_unknown_iff (m : BnnnMode) (w : Word) : decode m w = .unknown w ↔ catalogued m w = false := by
  rw [unknownSpaceByNibbles m w, ← Bool.not_eq_true, catalogued, catalogue, List.any_append, List.any_append,
    List.any_append]
  simp only [Bool.or_eq_true, any_plainRows, any_registerRows, any_trailingRows, any_jumpV0Rows, List.mem_cons,
    List.not_mem_nil, or_false]
  have hmode : m = .unknown ↔ ¬ m = .jumpV0 := by cases m <;> decide
  have hcls : w.toNat = 0x00E0 → w.toNat / 0x1000 = 0 := by omega
  have hret : w.toNat = 0x00EE → w.toNat / 0x1000 = 0 := by omega
  have hop : w.toNat / 0x1000 < 16 := by omega
  -- Each leading nibble leaves a few rows and one line of R86 to compare.
  generalize w.toNat / 0x1000 = op at *
  interval_cases op
  all_goals simp_all

/-! ### The round trip from a word -/

theorem packNnn_of_fields {w : Word} {op : Nibble} (h : nibble3 w = op) : packNnn op (addressField w) = w :=
  h ▸ packNnn_fields w

theorem packXkk_of_fields {w : Word} {op : Nibble} {kk : Byte} (h : nibble3 w = op) (hkk : lowByte w = kk) :
    packXkk op (regOfNibble (nibble2 w)) kk = w :=
  h ▸ hkk ▸ packXkk_fields w

theorem packXyn_of_fields {w : Word} {op n : Nibble} (h : nibble3 w = op) (hn : nibble0 w = n) :
    packXyn op (regOfNibble (nibble2 w)) (regOfNibble (nibble1 w)) n = w :=
  h ▸ hn ▸ packXyn_fields w

theorem encode_decodeFamily0 (w : Word) : encode (decodeFamily0 w) = w := by
  unfold decodeFamily0
  split
  next h => exact h.symm
  next =>
    split
    next h => exact h.symm
    next => rfl

theorem encode_decodeFamily8 {w : Word} (h : nibble3 w = 0x8#4) :
    encode (decodeFamily8 w (regOfNibble (nibble2 w)) (regOfNibble (nibble1 w))) = w := by
  unfold decodeFamily8
  split
  case h_10 => rfl
  all_goals next hn => exact packXyn_of_fields h hn

theorem encode_decodeFamilyE {w : Word} (h : nibble3 w = 0xE#4) :
    encode (decodeFamilyE w (regOfNibble (nibble2 w))) = w := by
  unfold decodeFamilyE
  split
  case h_3 => rfl
  all_goals next hkk => exact packXkk_of_fields h hkk

theorem encode_decodeFamilyF {w : Word} (h : nibble3 w = 0xF#4) :
    encode (decodeFamilyF w (regOfNibble (nibble2 w))) = w := by
  unfold decodeFamilyF
  split
  case h_10 => rfl
  all_goals next hkk => exact packXkk_of_fields h hkk

theorem encode_decode (m : BnnnMode) (w : Word) : encode (decode m w) = w := by
  unfold decode
  split
  case h_1 => exact encode_decodeFamily0 w
  case h_2 h | h_3 h | h_11 h => -- format NNN
    exact packNnn_of_fields h
  case h_4 h | h_5 h | h_7 h | h_8 h | h_13 h => -- format XKK
    exact packXkk_of_fields h rfl
  case h_6 h | h_10 h => -- families 5 and 9
    dsimp only
    split
    next hn => exact packXyn_of_fields h hn
    next => rfl
  case h_9 h => exact encode_decodeFamily8 h
  case h_12 h => -- Bnnn
    dsimp only
    split
    next => exact packNnn_of_fields h
    next => rfl
  case h_14 h => -- DRW
    exact packXyn_of_fields h rfl
  case h_15 h => exact encode_decodeFamilyE h
  case h_16 => -- family F, the arm of every other leading nibble
    refine encode_decodeFamilyF ?_
    generalize nibble3 w = op at *
    revert op
    decide

/-- Where `Bnnn` is UNKNOWN no word decodes to the conditional jump. -/
theorem decode_unknown_ne_jpV0 (w : Word) (nnn : Imm12) : decode .unknown w ≠ .jpV0 nnn := by
  intro h
  have hw : w = packNnn 0xB nnn := (congrArg encode h ▸ encode_decode .unknown w).symm
  rw [hw] at h
  simp [decode] at h

theorem wf_decode (m : BnnnMode) (w : Word) : (decode m w).wf m = true := by
  cases h : decode m w
  case unknown u =>
    obtain rfl : u = w := (congrArg encode h).symm.trans (encode_decode m w)
    rw [Instr.wf, (decode_eq_unknown_iff m u).1 h]
    rfl
  case jpV0 nnn =>
    cases m
    · exact absurd h (decode_unknown_ne_jpV0 w nnn)
    · rfl
  all_goals rfl

/-- Settles O5: the three facts about the decoder above. -/
theorem encodeOfDecodeIsIdentity : Obligations.EncodeOfDecodeIsIdentity := fun m w =>
  ⟨encode_decode m w, wf_decode m w, decode_eq_unknown_iff m w⟩

/-! ### The round trip from an instruction -/

/-- Settles O4: the decoder finds the operands that were packed, family by family; for UNKNOWN it is the catalogue that decides. -/
theorem decodeOfEncodeIsIdentity : Obligations.DecodeOfEncodeIsIdentity := by
  intro m i hwf
  cases i
  case unknown w => exact (decode_eq_unknown_iff m w).2 (by simpa [Instr.wf] using hwf)
  case jpV0 nnn =>
    obtain rfl : m = .jumpV0 := by simpa [Instr.wf] using hwf
    simp [encode, decode]
  case cls | ret => rfl
  case jp | call | ldI | seKk | sneKk | ldKk | addKk | rnd | seVy | sneVy | drw => simp [encode, decode]
  case ldVy | orVy | andVy | xorVy | addVy | subVy | shr | subnVy | shl => simp [encode, decode, decodeFamily8]
  case skp | sknp => simp [encode, decode, decodeFamilyE]
  case ldVxDt | ldVxK | ldDtVx | ldStVx | addI | ldF | ldB | dump | load => simp [encode, decode, decodeFamilyF]

/-- Settles O7, by running the decoder on the fourteen words. -/
theorem vectorWordsDecode : Obligations.VectorWordsDecode := by
  unfold Obligations.VectorWordsDecode
  decide

end Sys2Proof
end

section
/-! SUPPORT. The instruction step with its fetch read as a number, alone and inside a tick (30_encoding.md R95,
60_exceptions.md R273). -/

namespace Sys2Proof.Machine

/-! ### One instruction step -/

/-- The word a fetch reads from two backed bytes, given by its number (R53, R54). -/
theorem fetch_of_toNat {s : State} {w : Word} (hpc : s.pc.toNat + 1 < s.cfg.memSize)
    (hw : w.toNat = 256 * (s.mem.read s.pc.toNat).toNat + (s.mem.read (s.pc.toNat + 1)).toNat) :
    fetch s = .ok w s := by
  rw [fetch_ok hpc, ← BitVec.eq_of_toNat_eq (hw.trans (joinBytes_toNat _ _).symm)]

theorem instrStep_of_fetch_ok {s : State} {w : Word} (h : fetch s = .ok w s) :
    instrStep s = exec (decode s.cfg.bnnnMode w) s.advancePc := by
  rw [instrStep, h]

theorem instrStep_of_fetch_raised {s : State} {k : FatalKind} (h : fetch s = .raised k s) :
    instrStep s = .next (s.enterFatal k) := by
  rw [instrStep, h]

/-- The advance of `PC` as a number (R95). -/
theorem State.advancePc_eq_mod (s : State) :
    s.advancePc = { s with pc := BitVec.ofNat 16 ((s.pc.toNat + 2) % 65536) } := by
  have hpc : s.pc + 2 = BitVec.ofNat 16 ((s.pc.toNat + 2) % 65536) := by bv_omega
  rw [← hpc]
  rfl

/-- Settles O8: a free step is one instruction step, whose fetch reads the word or raises. -/
theorem stepRunsDecodedInstruction : Obligations.StepRunsDecodedInstruction := by
  intro s hrun hbatch hinputs
  rw [step_free hrun hbatch hinputs]
  constructor
  · intro w hpc hw
    rw [instrStep_of_fetch_ok (fetch_of_toNat hpc hw), State.advancePc_eq_mod]
  · intro hpc
    rw [instrStep_of_fetch_raised (fetch_raised hpc)]
    rfl

/-! ### One instruction of a batch -/

/-- With more than one instruction's time left a step inside a tick is an instruction of its batch (R273). -/
theorem step_batch {s : State} {elapsed : Nat} (hrun : s.run = .running) (hbatch : s.batch = some elapsed)
    (htime : s.cfg.tInstr < s.cycleAcc) : step s = batchInstr s := by
  have hgoes : batchGoes s = true := by simp [batchGoes, hrun, htime]
  have hlive : s.isFatal = false := by simp [State.isFatal, hrun]
  rw [step_live hlive, liveStep, hbatch]
  exact if_pos hgoes

theorem batchInstr_next {s t : State} (h : instrStep s = .next t) : batchInstr s = .next (closeIfFatal (deduct t)) := by
  rw [batchInstr, h]

/-- What is left of an instruction's state after the deduction, the record of the tick closed in FATAL (R261, R273). -/
theorem closeIfFatal_deduct (t : State) : closeIfFatal (deduct t) = { t with
    cycleAcc := t.cycleAcc - t.cfg.tInstr
    batch := if t.isFatal then none else t.batch } := by
  rw [closeIfFatal, isFatal_deduct]
  split <;> rfl

/-- Settles O9: the instruction keeps the parameters, the budget and the record of the tick, which the deduction then reads. -/
theorem batchStepRunsDecodedInstruction : Obligations.BatchStepRunsDecodedInstruction := by
  intro s t elapsed w hrun hbatch htime hpc hw hexec
  have hinstr : instrStep s = .next t := (instrStep_of_fetch_ok (fetch_of_toNat hpc hw)).trans hexec
  have hf := exec_frame hexec
  rw [step_batch hrun hbatch htime, batchInstr_next hinstr, closeIfFatal_deduct, hf.cycleAcc, hf.cfg, hf.batch, hbatch]

/-! ### Every instruction answers -/

/-- An attempt ends in a next state, raised or not (R260). -/
theorem Attempt.finish_answers (p : Attempt Unit) : ∃ t, p.finish = .next t := by
  cases p
  case ok u s => exact ⟨s, rfl⟩
  case raised k s => exact ⟨s.enterFatal k, rfl⟩

/-- Settles O10: an instruction that can raise ends through `Attempt.finish`, every other one by its definition. -/
theorem everyInstructionAnswers : Obligations.EveryInstructionAnswers := by
  intro i s
  cases i
  case ret | call | ldB | dump | load | drw | skp | sknp => exact Attempt.finish_answers _
  all_goals exact ⟨_, rfl⟩

end Sys2Proof.Machine
end

section
/-! SUPPORT. Words given by their number (30_encoding.md R82), and the control transfers of 40_control_flow.md one by one. -/

namespace Sys2Proof

/-- A word whose number is that of a well-formed instruction's encoding decodes to the instruction. -/
theorem decode_ofNat {m : BnnnMode} {i : Instr} {n : Nat} (hwf : i.wf m = true) (hn : (encode i).toNat = n) :
    decode m (BitVec.ofNat 16 n) = i := by
  rw [← hn, BitVec.ofNat_toNat, BitVec.setWidth_eq]
  exact decodeOfEncodeIsIdentity m i hwf

namespace Machine

/-! ### The jumps (R112, R118) -/

theorem zextAddress_toNat (nnn : Imm12) : (zextAddress nnn).toNat = nnn.toNat :=
  BitVec.toNat_setWidth_of_le (by decide)

theorem zextByte_toNat (u : Byte) : (zextByte u).toNat = u.toNat :=
  BitVec.toNat_setWidth_of_le (by decide)

/-- Setting `PC` changes nothing else. -/
theorem State.onlyPc_setPc (s : State) (pc : Word) : s.onlyPc { s with pc := pc } :=
  ⟨fun _ => rfl, rfl⟩

/-- An address and a byte add up to less than 2^16, so the sum of R118 does not wrap. -/
theorem zextAddress_add_zextByte_toNat (nnn : Imm12) (u : Byte) :
    (zextAddress nnn + zextByte u).toNat = nnn.toNat + u.toNat := by
  have hnnn := nnn.isLt
  have hu := u.isLt
  have hsum : (zextAddress nnn).toNat + (zextByte u).toNat < 2 ^ 16 := by
    rw [zextAddress_toNat, zextByte_toNat]
    omega
  rw [BitVec.toNat_add_of_lt hsum, zextAddress_toNat, zextByte_toNat]

/-- Settles O13: the word by the decoder's round trip, the target by widening the address. -/
theorem jumpGoesToImmediate : Obligations.JumpGoesToImmediate := by
  intro m nnn s
  exact ⟨decode_ofNat rfl (packNnn_toNat 0x1 nnn), { s with pc := zextAddress nnn }, rfl, zextAddress_toNat nnn,
    s.onlyPc_setPc _⟩

/-- Settles O19: the word belongs to JP V0 in one mode, and R86 lists it as UNKNOWN in the other. -/
theorem jumpV0AddsRegisterZero : Obligations.JumpV0AddsRegisterZero := by
  intro nnn s
  have hfamily : (BitVec.ofNat 16 (0xB000 + nnn.toNat)).toNat / 0x1000 = 0xB := by
    have hnnn := nnn.isLt
    rw [BitVec.toNat_ofNat]
    omega
  refine ⟨decode_ofNat rfl (packNnn_toNat 0xB nnn), ?_, { s with pc := zextAddress nnn + zextByte (s.readV 0) }, rfl,
    zextAddress_add_zextByte_toNat nnn (s.readV 0), s.onlyPc_setPc _⟩
  exact (unknownSpaceByNibbles .unknown _).2 (.inr (.inl ⟨hfamily, rfl⟩))

/-! ### CALL and RET (R111, R113) -/

/-- Settles O14: the state after a CALL with a slot free, read byte by byte; otherwise the push overflows. -/
theorem callPushesReturnAddress : Obligations.CallPushesReturnAddress := by
  intro m nnn s hc htop
  refine ⟨decode_ofNat rfl (packNnn_toNat 0x2 nnn), fun hfree => ?_, fun hfull => exec_call_overflow hc hfull nnn⟩
  refine ⟨s.afterCall nnn, exec_call_ok hc hfree htop nnn, zextAddress_toNat nnn,
    State.afterCall_sp_toNat (by omega) nnn, ?high, ?low, ?outside, rfl⟩
  case high => rw [State.read_afterCall, if_neg (by omega), if_pos rfl, highByte_toNat]
  case low => rw [State.read_afterCall, if_pos rfl, lowByte_toNat]
  case outside =>
    intro a ha
    rw [State.read_afterCall, if_neg (by omega), if_neg (by omega)]

/-- RET on an empty stack (R59, R111). -/
theorem exec_ret_underflow {s : State} (hc : s.cfg.wf) (hempty : 0x200 < s.sp.toNat + 2) :
    exec .ret s = .next (s.enterFatal .stackUnderflow) := by
  rw [← Config.stackTop_of_fixedRows hc.1] at hempty
  show execRet s = _
  rw [execRet, pop_underflow hempty]
  rfl

/-- Settles O15: the pop succeeds with a slot in use and underflows with none. -/
theorem returnPopsTarget : Obligations.ReturnPopsTarget := by
  intro m s hc
  refine ⟨decode_ofNat (i := .ret) rfl rfl, fun hused => ?_, exec_ret_underflow hc⟩
  refine ⟨_, exec_ret_ok hc hused, joinBytes_toNat _ _, ?_, fun _ => rfl, rfl⟩
  exact BitVec.toNat_add_of_lt (show s.sp.toNat + 2 < 2 ^ 16 by omega)

/-! ### The skips (R110, R114 to R117) -/

/-- A skip as a choice of `PC`, its condition read as a proposition. -/
theorem State.skipIf_of_iff (s : State) {c : Bool} {p : Prop} [Decidable p] (h : c = true ↔ p) :
    s.skipIf c = { s with pc := if p then BitVec.ofNat 16 ((s.pc.toNat + 2) % 65536) else s.pc } := by
  rw [State.skipIf, State.advancePc_eq_mod]
  by_cases hp : p
  · rw [if_pos (h.2 hp), if_pos hp]
  · rw [if_neg (mt h.1 hp), if_neg hp]

theorem byte_beq_iff (a b : Byte) : (a == b) = true ↔ a.toNat = b.toNat :=
  beq_iff_eq.trans BitVec.toNat_inj.symm

theorem byte_bne_iff (a b : Byte) : (a != b) = true ↔ a.toNat ≠ b.toNat :=
  bne_iff_ne.trans BitVec.toNat_inj.symm.not

/-- Settles O18: each skip is `State.skipIf` on its comparison. -/
theorem skipsCompareAndMovePc : Obligations.SkipsCompareAndMovePc := by
  intro m x y kk s past a b k
  refine ⟨decode_ofNat rfl (packXkk_toNat 0x3 x kk), ?seKk, decode_ofNat rfl (packXkk_toNat 0x4 x kk), ?sneKk,
    decode_ofNat rfl (packXyn_toNat 0x5 x y 0), ?seVy, decode_ofNat rfl (packXyn_toNat 0x9 x y 0), ?sneVy⟩
  case seKk => exact congrArg _ (s.skipIf_of_iff (byte_beq_iff (s.readV x) kk))
  case sneKk => exact congrArg _ (s.skipIf_of_iff (byte_bne_iff (s.readV x) kk))
  case seVy => exact congrArg _ (s.skipIf_of_iff (byte_beq_iff (s.readV x) (s.readV y)))
  case sneVy => exact congrArg _ (s.skipIf_of_iff (byte_bne_iff (s.readV x) (s.readV y)))

end Machine
end Sys2Proof
end

section
/-! SUPPORT. The ALU (41_alu.md): the results and flags of R140 as numbers, what an instruction that writes one register or a result
and a flag leaves behind, and the instructions one by one. -/

namespace Sys2Proof

/-- The word of family 8 with last nibble `n`, given by its number (R82, R143 to R151). -/
theorem decode_family8_ofNat {m : BnnnMode} {i : Instr} {x y : Reg} (n : Nibble) (hwf : i.wf m = true)
    (hi : encode i = packXyn 0x8 x y n) :
    decode m (BitVec.ofNat 16 (0x8000 + n.toNat + 0x100 * x.val + 0x10 * y.val)) = i := by
  refine decode_ofNat hwf ?_
  have hop : (0x8 : Nibble).toNat = 8 := rfl
  rw [hi, packXyn_toNat, hop]
  omega

namespace Machine

/-! ### Results and flags as numbers (R140, R147 to R151) -/

@[simp] theorem sumByte_toNat (a b : Byte) : (sumByte a b).toNat = (a.toNat + b.toNat) % 256 :=
  BitVec.toNat_ofNat ..

@[simp] theorem carryOut_toNat (a b : Byte) : (carryOut a b).toNat = if 255 < a.toNat + b.toNat then 1 else 0 :=
  apply_ite Bool.toNat _ true false

@[simp] theorem diffByte_toNat (a b : Byte) : (diffByte a b).toNat = (256 + a.toNat - b.toNat) % 256 := by
  have hb := b.isLt
  rw [diffByte, BitVec.toNat_ofInt]
  omega

@[simp] theorem strictlyAbove_toNat (a b : Byte) : (strictlyAbove a b).toNat = if b.toNat < a.toNat then 1 else 0 :=
  apply_ite Bool.toNat _ true false

@[simp] theorem halfByte_toNat (a : Byte) : (halfByte a).toNat = a.toNat / 2 := by
  rw [halfByte, BitVec.toNat_ushiftRight, Nat.shiftRight_eq_div_pow]

@[simp] theorem lowBit_toNat (a : Byte) : (lowBit a).toNat = a.toNat % 2 := by
  rw [lowBit, BitVec.getLsbD, Nat.toNat_testBit, Nat.pow_zero, Nat.div_one]

@[simp] theorem doubleByte_toNat (a : Byte) : (doubleByte a).toNat = 2 * a.toNat % 256 := by
  rw [doubleByte, BitVec.toNat_shiftLeft, Nat.shiftLeft_eq, Nat.mul_comm]

@[simp] theorem highBit_toNat (a : Byte) : (highBit a).toNat = a.toNat / 128 := by
  have ha := a.isLt
  rw [highBit, BitVec.getLsbD, Nat.toNat_testBit]
  omega

/-! ### One register written -/

theorem State.onlyRegisters_writeV (s : State) (x : Reg) (u : Byte) : s.onlyRegisters (s.writeV x u) :=
  ⟨fun _ => rfl, rfl⟩

theorem State.readV_writeV_self (s : State) (x : Reg) (u : Byte) : (s.writeV x u).readV x = u :=
  (s.readV_writeV x x u).trans (if_pos rfl)

theorem State.readV_writeV_of_ne (s : State) {x r : Reg} (u : Byte) (h : r ≠ x) : (s.writeV x u).readV r = s.readV r :=
  (s.readV_writeV x r u).trans (if_neg h)

theorem State.readV_writeV_toNat (s : State) (x r : Reg) (u : Byte) :
    ((s.writeV x u).readV r).toNat = if r = x then u.toNat else (s.readV r).toNat := by
  rw [State.readV_writeV, apply_ite BitVec.toNat]

/-- Settles O20: one register written, with the immediate or with its sum. -/
theorem immediateLoadAndAdd : Obligations.ImmediateLoadAndAdd := by
  intro m x kk s
  refine ⟨decode_ofNat rfl (packXkk_toNat 0x6 x kk), ⟨s.writeV x kk, rfl, s.onlyRegisters_writeV x kk, fun r => ?load⟩,
    decode_ofNat rfl (packXkk_toNat 0x7 x kk),
    ⟨s.writeV x (sumByte (s.readV x) kk), rfl, s.onlyRegisters_writeV x _, fun r => ?add⟩⟩
  case load => exact s.readV_writeV_toNat x r kk
  case add => rw [State.readV_writeV_toNat, sumByte_toNat]

/-- What an instruction that writes `u` to `V[x]` and nothing else does, the result given bit by bit (R144 to R146). -/
theorem exec_writeV_bits {ins : Instr} {s : State} {x : Reg} {u : Byte} {bit : Nat → Bool}
    (hexec : exec ins s = .next (s.writeV x u)) (hbit : ∀ b, u.getLsbD b = bit b) :
    ∃ t, exec ins s = .next t ∧ s.onlyRegisters t ∧ (∀ r, r ≠ x → t.readV r = s.readV r) ∧
      ∀ b, b < 8 → (t.readV x).getLsbD b = bit b := by
  refine ⟨s.writeV x u, hexec, s.onlyRegisters_writeV x u, fun r hr => s.readV_writeV_of_ne u hr, fun b _ => ?_⟩
  rw [State.readV_writeV_self, hbit]

/-- Settles O21: each of the four writes `V[x]` alone, and OR, AND and XOR of bytes go bit by bit. -/
theorem registerCopyAndLogic : Obligations.RegisterCopyAndLogic := by
  intro m x y s
  refine ⟨⟨decode_family8_ofNat 0x0 rfl rfl, ?copy⟩, ⟨decode_family8_ofNat 0x1 rfl rfl, ?or⟩,
    ⟨decode_family8_ofNat 0x2 rfl rfl, ?and⟩, ⟨decode_family8_ofNat 0x3 rfl rfl, ?xor⟩⟩
  case copy => exact ⟨_, rfl, s.onlyRegisters_writeV x (s.readV y), fun r => s.readV_writeV x r (s.readV y)⟩
  case or => exact exec_writeV_bits rfl fun _ => BitVec.getLsbD_or
  case and => exact exec_writeV_bits rfl fun _ => BitVec.getLsbD_and
  case xor => exact exec_writeV_bits rfl fun _ => BitVec.getLsbD_xor

/-- Settles O26: the draw is counted, and its byte masked goes to `V[x]` alone. -/
theorem randomIsMaskedDraw : Obligations.RandomIsMaskedDraw := by
  intro m x kk s
  refine ⟨decode_ofNat rfl (packXkk_toNat 0xC x kk), s.afterDraw.writeV x (s.drawnByte &&& kk), rfl, rfl, fun _ => rfl,
    fun r hr => s.afterDraw.readV_writeV_of_ne _ hr, fun b _ => ?_⟩
  rw [State.readV_writeV_self, BitVec.getLsbD_and, State.drawnByte]

/-! ### A result and a flag written (R140 (c)) -/

theorem State.onlyRegisters_writeResultAndFlag (s : State) (x : Reg) (u : Byte) (f : Bool) :
    s.onlyRegisters (s.writeResultAndFlag x u f) :=
  ⟨fun a => by rw [State.writeResultAndFlag_mem], s.writeResultAndFlag_eq x u f⟩

/-- With VF the flag register, the two writes leave what R140 (c) gives for the order of the parameters. -/
theorem State.readV_writeResultAndFlag_toNat {s : State} (hrows : s.cfg.fixedRows) (x r : Reg) (u : Byte) (f : Bool) :
    ((s.writeResultAndFlag x u f).readV r).toNat =
      resultAndFlag s.cfg.flagOrder x r (s.readV r).toNat u.toNat f.toNat := by
  rw [State.readV_writeResultAndFlag, Config.flagReg_of_fixedRows hrows]
  cases s.cfg.flagOrder <;> simp only [resultAndFlag, apply_ite BitVec.toNat, flagByte_toNat]

/-- What an instruction that writes a result to `V[x]` and a flag to VF does, both given as numbers (R140). -/
theorem exec_writeResultAndFlag {ins : Instr} {s : State} {x : Reg} {u : Byte} {f : Bool} {result flag : Nat}
    (hrows : s.cfg.fixedRows) (hexec : exec ins s = .next (s.writeResultAndFlag x u f)) (hu : u.toNat = result)
    (hf : f.toNat = flag) :
    ∃ t, exec ins s = .next t ∧ s.onlyRegisters t ∧ ∀ r, (t.readV r).toNat =
      resultAndFlag s.cfg.flagOrder x r (s.readV r).toNat result flag := by
  refine ⟨s.writeResultAndFlag x u f, hexec, s.onlyRegisters_writeResultAndFlag x u f, fun r => ?_⟩
  rw [State.readV_writeResultAndFlag_toNat hrows, hu, hf]

/-- Settles O22: the result is the sum of the two registers, the flag its carry. -/
theorem addRegistersSetsCarry : Obligations.AddRegistersSetsCarry := fun _ _ _ _ hrows =>
  ⟨decode_family8_ofNat 0x4 rfl rfl, exec_writeResultAndFlag hrows rfl (sumByte_toNat _ _) (carryOut_toNat _ _)⟩

/-- Settles O23: the result is the difference of the two registers, the flag their strict comparison. -/
theorem subtractSetsStrictFlag : Obligations.SubtractSetsStrictFlag := fun _ _ _ _ hrows =>
  ⟨decode_family8_ofNat 0x5 rfl rfl, exec_writeResultAndFlag hrows rfl (diffByte_toNat _ _) (strictlyAbove_toNat _ _)⟩

/-- Settles O24: as O23, the operands exchanged. -/
theorem subtractReversedSetsStrictFlag : Obligations.SubtractReversedSetsStrictFlag := fun _ _ _ _ hrows =>
  ⟨decode_family8_ofNat 0x7 rfl rfl, exec_writeResultAndFlag hrows rfl (diffByte_toNat _ _) (strictlyAbove_toNat _ _)⟩

/-- Settles O25: neither shift reads `V[y]`, and the flag is the lowest or the highest bit of `V[x]`. -/
theorem shiftsMoveOneBit : Obligations.ShiftsMoveOneBit := by
  intro m x y s hrows
  refine ⟨⟨decode_family8_ofNat 0x6 rfl rfl, ?right⟩, ⟨decode_family8_ofNat 0xE rfl rfl, ?left⟩⟩
  case right => exact exec_writeResultAndFlag hrows rfl (halfByte_toNat _) (lowBit_toNat _)
  case left => exact exec_writeResultAndFlag hrows rfl (doubleByte_toNat _) (highBit_toNat _)

end Machine
end Sys2Proof
end

section
/-! SUPPORT. The address register and the memory transfers (42_address_memory.md): what a store and a load leave behind, in range
and stopped at an unbacked byte, and the instructions one by one. -/

namespace Sys2Proof

/-- The word of family F with trailing byte `kk`, given by its number (R82). -/
theorem decode_familyF_ofNat {m : BnnnMode} {i : Instr} {x : Reg} (kk : Byte) (hwf : i.wf m = true)
    (hi : encode i = packXkk 0xF x kk) :
    decode m (BitVec.ofNat 16 (0xF000 + kk.toNat + 0x100 * x.val)) = i := by
  refine decode_ofNat hwf ?_
  have hop : (0xF : Nibble).toNat = 15 := rfl
  rw [hi, packXkk_toNat, hop]
  omega

namespace Machine

/-! ### The address register (R180 to R182) -/

/-- Setting `I` changes nothing else. -/
theorem State.onlyI_setI (s : State) (w : Word) : s.onlyI { s with i := w } :=
  ⟨fun _ => rfl, rfl⟩

/-- Five times a byte is below 2^16, so the product of R182 does not wrap. -/
theorem zextByte_mul_five_toNat (u : Byte) : (zextByte u * 5).toNat = 5 * u.toNat := by
  have hu := u.isLt
  have hfive : (5 : Word).toNat = 5 := rfl
  rw [BitVec.toNat_mul, zextByte_toNat, hfive]
  omega

/-- Settles O27: each of the three sets `I` alone. -/
theorem addressRegisterWrites : Obligations.AddressRegisterWrites := by
  intro m nnn x s
  refine ⟨⟨decode_ofNat rfl (packNnn_toNat 0xA nnn), _, rfl, zextAddress_toNat nnn, s.onlyI_setI _⟩,
    ⟨decode_familyF_ofNat 0x1E rfl rfl, _, rfl, ?add, s.onlyI_setI _⟩,
    ⟨decode_familyF_ofNat 0x29 rfl rfl, _, rfl, zextByte_mul_five_toNat (s.readV x), s.onlyI_setI _⟩⟩
  case add => exact (BitVec.toNat_add s.i _).trans (by rw [zextByte_toNat])

/-! ### The bytes a transfer stores (R183, R184) -/

/-- Digit `k` of the three, the hundreds first, by its place value. -/
theorem bcdDigits_getD_toNat (u : Byte) {k : Nat} (hk : k < 3) :
    ((bcdDigits u).getD k 0).toNat = u.toNat / 10 ^ (2 - k) % 10 := by
  have hu := u.isLt
  have hbyte {n : Nat} (hn : n < 256) : (BitVec.ofNat 8 n).toNat = n := (BitVec.toNat_ofNat n 8).trans (Nat.mod_eq_of_lt hn)
  match k, hk with
  | 0, _ => exact (hbyte (by omega)).trans (Nat.mod_eq_of_lt (by omega)).symm
  | 1, _ => exact hbyte (by omega)
  | 2, _ => exact (hbyte (by omega)).trans (by rw [Nat.sub_self, Nat.pow_zero, Nat.div_one])

/-- `V[r]` stands at place `r` among the registers of a transfer. -/
theorem regsUpTo_getElem_of_le {x r : Reg} (hr : r ≤ x) : ∃ h : r.val < (regsUpTo x).length, (regsUpTo x)[r.val] = r :=
  have hk : r.val < (regsUpTo x).length := (regsUpTo_length x).symm ▸ Nat.lt_succ_of_le hr
  ⟨hk, Fin.ext (regsUpTo_getElem x r.val hk)⟩

theorem State.valuesUpTo_length (s : State) (x : Reg) : (s.valuesUpTo x).length = x.val + 1 := by
  rw [State.valuesUpTo, List.length_map, regsUpTo_length]

theorem State.valuesUpTo_getD (s : State) {x r : Reg} (hr : r ≤ x) : (s.valuesUpTo x).getD r.val 0 = s.readV r := by
  obtain ⟨hk, hreg⟩ := regsUpTo_getElem_of_le hr
  rw [State.valuesUpTo, List.getD_eq_getElem _ _ (by rwa [List.length_map]), List.getElem_map, hreg]

/-! ### A store (R56, R183, R184) -/

theorem State.transferAddress_eq (s : State) (k : Nat) : s.transferAddress k = s.i.toNat + k := rfl

/-- With every byte backed, an instruction that stores `bytes` at `I` places all of them and changes memory alone. -/
theorem exec_store_ok {ins : Instr} {s : State} {bytes : List Byte}
    (hexec : exec ins s = (storeBytes (s.transferAddress 0) bytes s).finish)
    (hbacked : s.i.toNat + bytes.length ≤ s.cfg.memSize) :
    ∃ t, exec ins s = .next t ∧ t = { s with mem := t.mem } ∧
      (∀ k, k < bytes.length → t.mem.read (s.transferAddress k) = bytes.getD k 0) ∧
      s.sameBytesOutside t (s.transferAddress 0) bytes.length := by
  have hstore : storeBytes (s.transferAddress 0) bytes s = .ok () { s with mem := Memory.place s.i.toNat bytes s.mem } :=
    storeBytes_ok bytes _ s fun k hk => by rw [State.transferAddress_eq]; omega
  refine ⟨_, by rw [hexec, hstore, Attempt.finish_ok], rfl, ?inside, ?outside⟩
  case inside =>
    intro k hk
    rw [State.transferAddress_eq, Memory.read_place, if_pos (by omega), Nat.add_sub_cancel_left]
  case outside =>
    intro a ha
    rw [State.transferAddress_eq] at ha
    rw [Memory.read_place, if_neg (by omega)]

/-- Bytes placed up to an address that cuts them short. -/
theorem Memory.read_place_take {bytes : List Byte} {a limit : Nat} (hcut : limit < a + bytes.length) (m : Memory) (b : Nat) :
    (Memory.place a (bytes.take (limit - a)) m).read b =
      if a ≤ b ∧ b < limit then bytes.getD (b - a) 0 else m.read b := by
  have hlen : (bytes.take (limit - a)).length = limit - a := List.length_take_of_le (by omega)
  rw [Memory.read_place, hlen]
  refine ite_congr (propext (by omega)) (fun h => ?_) fun _ => rfl
  simp only [List.getD_eq_getElem?_getD]
  rw [List.getElem?_take_of_lt (by omega)]

/-- A store of `bytes` at `I` that reaches an unbacked address stops there, with the bytes before it placed (R260). -/
theorem exec_store_raised {ins : Instr} {s : State} {bytes : List Byte}
    (hexec : exec ins s = (storeBytes (s.transferAddress 0) bytes s).finish)
    (hcut : s.cfg.memSize < s.i.toNat + bytes.length) (hne : bytes ≠ []) :
    ∃ t, exec ins s = .next t ∧ t = { s with mem := t.mem, run := .fatal .memRange } ∧
      ∀ a, t.mem.read a =
        if s.i.toNat ≤ a ∧ a < s.cfg.memSize then bytes.getD (a - s.i.toNat) 0 else s.mem.read a := by
  rw [hexec, State.transferAddress_eq, storeBytes_raised bytes (s.i.toNat + 0) s hcut hne, Attempt.finish_raised]
  exact ⟨_, rfl, rfl, Memory.read_place_take hcut s.mem⟩

/-- Settles O28: the three digits are a store at `I`. -/
theorem bcdStoresThreeDigits : Obligations.BcdStoresThreeDigits := by
  intro m x s hbacked a
  obtain ⟨t, ht, hframe, hin, hout⟩ := exec_store_ok (ins := .ldB x) rfl hbacked
  have hdigit {k : Nat} (hk : k < 3) : (t.mem.read (s.transferAddress k)).toNat = a / 10 ^ (2 - k) % 10 := by
    rw [hin k hk, bcdDigits_getD_toNat _ hk]
  have ha : a < 256 := (s.readV x).isLt
  refine ⟨decode_familyF_ofNat 0x33 rfl rfl, t, ht, ?hundreds, hdigit (by decide), ?ones, hout, hframe⟩
  case hundreds => exact (hdigit (by decide)).trans (Nat.mod_eq_of_lt (by omega))
  case ones => exact (hdigit (by decide)).trans (by rw [Nat.sub_self, Nat.pow_zero, Nat.div_one])

/-- Settles O29: the values of `V[0]..V[x]` are a store at `I`. -/
theorem dumpStoresRegisters : Obligations.DumpStoresRegisters := by
  intro m x s hbacked
  have hlen := s.valuesUpTo_length x
  obtain ⟨t, ht, hframe, hin, hout⟩ := exec_store_ok (ins := .dump x) (s := s) rfl (by omega)
  refine ⟨decode_familyF_ofNat 0x55 rfl rfl, t, ht, fun r hr => ?_, hlen ▸ hout, hframe⟩
  have hk : r.val < (s.valuesUpTo x).length := hlen ▸ Nat.lt_succ_of_le hr
  rw [hin r.val hk, s.valuesUpTo_getD hr]

/-! ### A load (R185) -/

/-- LD Vx, [I]: each of `V[0]..V[x]` whose address is backed takes its byte, and the end is in FATAL when one is not. -/
theorem exec_load_spec (x : Reg) (s : State) :
    ∃ t : State, t = { s with v := t.v } ∧
      exec (.load x) s = .next (if s.i.toNat + x.val < s.cfg.memSize then t else t.enterFatal .memRange) ∧
      ∀ r : Reg, t.readV r =
        if r ≤ x ∧ s.i.toNat + r.val < s.cfg.memSize then s.mem.read (s.i.toNat + r.val) else s.readV r := by
  obtain ⟨t, ht, hload, hin, hout⟩ := loadRegs_spec (regsUpTo x) (s.transferAddress 0) s (regsUpTo_nodup x)
  refine ⟨t, ht, ?outcome, fun r => ?register⟩
  case outcome =>
    have hlen := regsUpTo_length x
    have hbacked : (∀ k, k < (regsUpTo x).length → s.transferAddress 0 + k < s.cfg.memSize) ↔
        s.i.toNat + x.val < s.cfg.memSize :=
      ⟨fun h => h x.val (by omega), fun h k hk => by rw [State.transferAddress_eq]; omega⟩
    show (loadRegs (s.transferAddress 0) (regsUpTo x) s).finish = _
    rw [hload, if_congr hbacked rfl rfl, apply_ite Attempt.finish, Attempt.finish_ok, Attempt.finish_raised, ← apply_ite]
  case register =>
    by_cases hr : r ≤ x
    · obtain ⟨hk, hreg⟩ := regsUpTo_getElem_of_le hr
      have h := hin r.val hk
      rw [hreg] at h
      exact h.trans (if_congr (and_iff_right hr).symm rfl rfl)
    · rw [hout r (by rwa [mem_regsUpTo]), if_neg fun h => hr h.1]

/-- Settles O30: every address of the load is backed. -/
theorem loadFillsRegisters : Obligations.LoadFillsRegisters := by
  intro m x s hbacked
  obtain ⟨t, hframe, ht, hreg⟩ := exec_load_spec x s
  rw [if_pos hbacked] at ht
  refine ⟨decode_familyF_ofNat 0x65 rfl rfl, t, ht, ⟨fun a => by rw [hframe], hframe⟩, fun r => ?_⟩
  have hr : r ≤ x → s.i.toNat + r.val < s.cfg.memSize := fun h => lt_of_le_of_lt (Nat.add_le_add_left h _) hbacked
  exact (hreg r).trans (if_congr (and_iff_left_of_imp hr) rfl rfl)

/-! ### Transfers that reach an unbacked byte (R260) -/

/-- LD B stopped at an unbacked byte (R183). -/
theorem exec_ldB_raised {x : Reg} {s : State} (hcut : s.cfg.memSize ≤ s.i.toNat + 2) :
    ∃ t, exec (.ldB x) s = .next t ∧ t = { s with mem := t.mem, run := .fatal .memRange } ∧
      ∀ a, (t.mem.read a).toNat =
        if s.i.toNat ≤ a ∧ a < s.cfg.memSize then (s.readV x).toNat / 10 ^ (2 - (a - s.i.toNat)) % 10
        else (s.mem.read a).toNat := by
  obtain ⟨t, ht, hframe, hread⟩ := exec_store_raised (ins := .ldB x) rfl (Nat.lt_succ_of_le hcut) (List.cons_ne_nil _ _)
  refine ⟨t, ht, hframe, fun a => ?_⟩
  rw [hread, apply_ite BitVec.toNat]
  exact ite_congr rfl (fun h => bcdDigits_getD_toNat _ (by omega)) fun _ => rfl

/-- LD [I], Vx stopped at an unbacked byte (R184). -/
theorem exec_dump_raised {x : Reg} {s : State} (hcut : s.cfg.memSize ≤ s.i.toNat + x.val) :
    ∃ t, exec (.dump x) s = .next t ∧ t = { s with mem := t.mem, run := .fatal .memRange } ∧
      ∀ a, t.mem.read a =
        if s.i.toNat ≤ a ∧ a < s.cfg.memSize then s.readV (Fin.ofNat 16 (a - s.i.toNat)) else s.mem.read a := by
  have hlen := s.valuesUpTo_length x
  obtain ⟨t, ht, hframe, hread⟩ := exec_store_raised (ins := .dump x) (s := s) rfl (by omega)
    (List.ne_nil_of_length_eq_add_one hlen)
  refine ⟨t, ht, hframe, fun a => (hread a).trans (ite_congr rfl (fun h => ?_) fun _ => rfl)⟩
  have hx := x.isLt
  have hval : (Fin.ofNat 16 (a - s.i.toNat)).val = a - s.i.toNat := Nat.mod_eq_of_lt (by omega)
  have hr : Fin.ofNat 16 (a - s.i.toNat) ≤ x := Fin.le_def.2 (by omega)
  rw [← s.valuesUpTo_getD hr, hval]

/-- LD Vx, [I] stopped at an unbacked byte (R185). -/
theorem exec_load_raised {x : Reg} {s : State} (hcut : s.cfg.memSize ≤ s.i.toNat + x.val) :
    ∃ t, exec (.load x) s = .next t ∧ t = { s with v := t.v, run := .fatal .memRange } ∧ s.sameBytes t ∧
      ∀ r : Reg, t.readV r =
        if s.i.toNat + r.val < s.cfg.memSize then s.mem.read (s.i.toNat + r.val) else s.readV r := by
  obtain ⟨t, hframe, ht, hreg⟩ := exec_load_spec x s
  rw [if_neg (Nat.not_lt.2 hcut)] at ht
  refine ⟨t.enterFatal .memRange, ht, by rw [hframe]; rfl, fun a => by rw [hframe]; rfl, fun r => ?_⟩
  have hr : s.i.toNat + r.val < s.cfg.memSize → r ≤ x := fun h => Fin.le_def.2 (by omega)
  exact (hreg r).trans (if_congr (and_iff_right_of_imp hr) rfl rfl)

/-- Settles O31: the two stores and the load, each stopped at the first unbacked byte. -/
theorem transfersStopAtUnbackedByte : Obligations.TransfersStopAtUnbackedByte :=
  fun _ _ => ⟨exec_ldB_raised, fun hcut => ⟨exec_dump_raised hcut, exec_load_raised hcut⟩⟩

end Machine
end Sys2Proof
end

section
/-! SUPPORT. The framebuffer controller (43_display.md): what DRW leaves behind when it ends and when it stops at an unbacked row,
and the instructions and the port one by one. -/

namespace Sys2Proof.Machine

/-! ### Clear (R211) -/

/-- Settles O32: only the framebuffer is written, and every cell of it is off. -/
theorem clearTurnsEveryCellOff : Obligations.ClearTurnsEveryCellOff := fun m s =>
  ⟨decodeOfEncodeIsIdentity m .cls rfl, s.clearCells, rfl, fun j _ => s.cell_clearCells j, fun _ => rfl, rfl⟩

/-! ### The cells under a sprite (R212 to R214) -/

theorem State.originX_of_fixedRows {s : State} (hrows : s.cfg.fixedRows) (x : Reg) :
    s.originX x = (s.readV x).toNat % 64 := by
  rw [State.originX, Config.fbW_of_fixedRows hrows]

theorem State.originY_of_fixedRows {s : State} (hrows : s.cfg.fixedRows) (y : Reg) :
    s.originY y = (s.readV y).toNat % 32 := by
  rw [State.originY, Config.fbH_of_fixedRows hrows]

/-- One bit alone reaches each cell under a sprite of at most 32 rows (R214), so that bit decides whether the cell is covered. -/
theorem State.spriteCovers_cellIndex (s : State) {ox oy rows r c : Nat} (h32 : rows ≤ 32) (hr : r < rows) (hc : c < 8) :
    s.spriteCovers ox oy (List.range rows) (cellIndex 64 32 ox oy r c) = s.spriteBit r c := by
  rw [Bool.eq_iff_iff, State.spriteCovers_iff]
  constructor
  · rintro ⟨r', hr', c', hc', hbit, hj⟩
    rw [List.mem_range] at hr'
    obtain ⟨rfl, rfl⟩ := cellIndex_injective (by omega) (by omega) (by omega) (by omega) hj
    exact hbit
  · exact fun hbit => ⟨r, List.mem_range.2 hr, c, hc, hbit, rfl⟩

/-- A sprite covers no cell that is under none of its bits. -/
theorem State.spriteCovers_eq_false (s : State) {ox oy rows j : Nat}
    (h : ∀ r c, r < rows → c < 8 → j ≠ cellIndex 64 32 ox oy r c) : s.spriteCovers ox oy (List.range rows) j = false := by
  rw [Bool.eq_false_iff, Ne, State.spriteCovers_iff]
  rintro ⟨r, hr, c, hc, -, hj⟩
  exact h r c (List.mem_range.1 hr) hc hj

/-- A sprite collides exactly when it covers a cell that is on. -/
theorem State.spriteCollides_iff_covers (s : State) (ox oy : Nat) (rows : List Nat) :
    s.spriteCollides ox oy rows = true ↔ ∃ j, j < 2048 ∧ s.spriteCovers ox oy rows j = true ∧ s.cell j = true := by
  simp only [State.spriteCollides_iff, State.spriteCovers_iff]
  constructor
  · rintro ⟨r, hr, c, hc, hbit, hon⟩
    exact ⟨_, cellIndex_lt ox oy r c, ⟨r, hr, c, hc, hbit, rfl⟩, hon⟩
  · rintro ⟨_, -, ⟨r, hr, c, hc, hbit, rfl⟩, hon⟩
    exact ⟨r, hr, c, hc, hbit, hon⟩

/-! ### The state after a draw -/

/-- `t` shows the first `rows` rows of the sprite of `s` composed at an origin, and VF holds whether one of their set bits met a cell
that was on (R212, R213). -/
structure State.Composed (s : State) (ox oy rows : Nat) (t : State) : Prop where
  cell_eq : ∀ j, t.cell j = (s.cell j != s.spriteCovers ox oy (List.range rows) j)
  readV_eq : ∀ q : Reg, t.readV q = if q = 15 then flagByte (s.spriteCollides ox oy (List.range rows)) else s.readV q

namespace State.Composed

variable {s t : State} {ox oy rows : Nat}

theorem cell_under (h : s.Composed ox oy rows t) (h32 : rows ≤ 32) (r c : Nat) (hr : r < rows) (hc : c < 8) :
    t.cell (cellIndex 64 32 ox oy r c) = (s.cell (cellIndex 64 32 ox oy r c) != s.spriteBit r c) := by
  rw [h.cell_eq, s.spriteCovers_cellIndex h32 hr hc]

theorem cell_elsewhere (h : s.Composed ox oy rows t) (j : Nat)
    (hj : ∀ r c, r < rows → c < 8 → j ≠ cellIndex 64 32 ox oy r c) : t.cell j = s.cell j := by
  rw [h.cell_eq, s.spriteCovers_eq_false hj, Bool.bne_false]

theorem readV_of_ne (h : s.Composed ox oy rows t) (q : Reg) (hq : q ≠ 15) : t.readV q = s.readV q :=
  (h.readV_eq q).trans (if_neg hq)

theorem readV_flag (h : s.Composed ox oy rows t) : t.readV 15 = flagByte (s.spriteCollides ox oy (List.range rows)) :=
  (h.readV_eq 15).trans (if_pos rfl)

/-- VF is 1 with a set bit over a cell that was on, or 0 with none (R213). -/
theorem flag_cases (h : s.Composed ox oy rows t) :
    (t.readV 15 = 1 ∧
      ∃ r c, r < rows ∧ c < 8 ∧ s.spriteBit r c = true ∧ s.cell (cellIndex 64 32 ox oy r c) = true) ∨
    (t.readV 15 = 0 ∧
      ∀ r c, r < rows → c < 8 → s.spriteBit r c = true → s.cell (cellIndex 64 32 ox oy r c) = false) := by
  have hiff := s.spriteCollides_iff ox oy (List.range rows)
  rw [h.readV_flag]
  cases hcol : s.spriteCollides ox oy (List.range rows) with
  | true =>
    obtain ⟨r, hr, c, hc, hbit, hon⟩ := hiff.1 hcol
    exact .inl ⟨rfl, r, c, List.mem_range.1 hr, hc, hbit, hon⟩
  | false =>
    refine .inr ⟨rfl, fun r c hr hc hbit => Bool.eq_false_iff.2 fun hon => ?_⟩
    exact Bool.eq_false_iff.1 hcol (hiff.2 ⟨r, List.mem_range.2 hr, c, hc, hbit, hon⟩)

/-- Entering FATAL touches neither cells nor registers. -/
theorem enterFatal (h : s.Composed ox oy rows t) (k : FatalKind) : s.Composed ox oy rows (t.enterFatal k) :=
  ⟨h.cell_eq, h.readV_eq⟩

end State.Composed

/-! ### DRW (R212) -/

/-- The first `rows` rows of a sprite, all backed, composed after VF is cleared. -/
theorem drawRows_composed {s : State} (hrows : s.cfg.fixedRows) (ox oy : Nat) {rows : Nat} (h32 : rows ≤ 32)
    (hbacked : ∀ r, r < rows → s.i.toNat + r < s.cfg.memSize) :
    ∃ t, drawRows 64 32 ox oy (List.range rows) (s.writeV s.cfg.flagReg 0) = .ok () t ∧
      t = { s with v := t.v, fb := t.fb } ∧ s.Composed ox oy rows t := by
  obtain ⟨t, ht, hframe, hcell, hreg⟩ := drawRows_ok ox oy (List.range rows) (s.writeV s.cfg.flagReg 0) List.nodup_range
    (fun r hr => Nat.lt_of_lt_of_le (List.mem_range.1 hr) h32) (fun r hr => hbacked r (List.mem_range.1 hr))
  refine ⟨t, ht, hframe, hcell, fun q => ?_⟩
  have hcol : (s.writeV s.cfg.flagReg 0).spriteCollides ox oy (List.range rows) =
    s.spriteCollides ox oy (List.range rows) := rfl
  rw [hreg, hcol, State.writeV_cfg, State.readV_writeV, Config.flagReg_of_fixedRows hrows]
  by_cases hq : q = 15
  · cases s.spriteCollides ox oy (List.range rows) <;> simp [hq, flagByte]
  · simp [hq]

/-- DRW, the size of the grid written out. -/
theorem exec_drw_eq {s : State} (hrows : s.cfg.fixedRows) (x y : Reg) (n : Nibble) :
    exec (.drw x y n) s = (drawRows 64 32 (s.originX x) (s.originY y) (List.range n.toNat)
      (s.writeV s.cfg.flagReg 0)).finish := by
  rw [← Config.fbW_of_fixedRows hrows, ← Config.fbH_of_fixedRows hrows]
  rfl

/-- With its rows backed, DRW composes all of them and changes only registers and cells. -/
theorem exec_drw_ok {s : State} (hrows : s.cfg.fixedRows) (x y : Reg) {n : Nibble}
    (hbacked : ∀ r, r < n.toNat → s.i.toNat + r < s.cfg.memSize) :
    ∃ t, exec (.drw x y n) s = .next t ∧ t = { s with v := t.v, fb := t.fb } ∧
      s.Composed (s.originX x) (s.originY y) n.toNat t := by
  have hn := n.isLt
  obtain ⟨t, ht, hframe, hcomp⟩ := drawRows_composed hrows (s.originX x) (s.originY y) (by omega) hbacked
  exact ⟨t, by rw [exec_drw_eq hrows, ht, Attempt.finish_ok], hframe, hcomp⟩

/-- DRW stopped at an unbacked row: the backed rows before it are composed (R260). -/
theorem exec_drw_raised {s : State} (hrows : s.cfg.fixedRows) (x y : Reg) {n : Nibble} (hpos : 0 < n.toNat)
    (hcut : s.cfg.memSize < s.i.toNat + n.toNat) :
    ∃ t, exec (.drw x y n) s = .next t ∧ t = { s with v := t.v, fb := t.fb, run := .fatal .memRange } ∧
      s.Composed (s.originX x) (s.originY y) (s.cfg.memSize - s.i.toNat) t := by
  have hn := n.isLt
  obtain ⟨t, ht, hframe, hcomp⟩ := drawRows_composed hrows (s.originX x) (s.originY y)
    (rows := s.cfg.memSize - s.i.toNat) (by omega) (fun r hr => by omega)
  have hstop := drawRows_raised 64 32 (s.originX x) (s.originY y) n.toNat (s.writeV s.cfg.flagReg 0) t hcut hpos
    (by rw [hframe]; rfl) (by rw [hframe]; rfl) ht
  refine ⟨t.enterFatal .memRange, by rw [exec_drw_eq hrows, hstop, Attempt.finish_raised], ?_, hcomp.enterFatal _⟩
  rw [hframe]; rfl

/-- Settles O33: every row is backed, so the whole sprite is composed. -/
theorem drawComposesSpriteByXor : Obligations.DrawComposesSpriteByXor := by
  intro m x y n s hrows hbacked
  have hn := n.isLt
  obtain ⟨t, ht, hframe, hcomp⟩ := exec_drw_ok hrows x y hbacked
  rw [State.originX_of_fixedRows hrows, State.originY_of_fixedRows hrows] at hcomp
  exact ⟨decode_ofNat rfl (packXyn_toNat 0xD x y n), t, ht, hframe, fun a => by rw [hframe], hcomp.cell_under (by omega),
    fun j _ => hcomp.cell_elsewhere j, hcomp.readV_of_ne, hcomp.flag_cases⟩

/-- Settles O34: the rows composed are the backed ones, from `I` up to `MEM_SIZE`. -/
theorem drawStopsAtUnbackedRow : Obligations.DrawStopsAtUnbackedRow := by
  intro x y n s hrows hne hcut
  have hn := n.isLt
  have hpos : 0 < n.toNat := by bv_omega
  obtain ⟨t, ht, hframe, hcomp⟩ := exec_drw_raised hrows x y hpos hcut
  rw [State.originX_of_fixedRows hrows, State.originY_of_fixedRows hrows] at hcomp
  exact ⟨t, ht, hframe, fun a => by rw [hframe], hcomp.cell_under (by omega), fun j _ => hcomp.cell_elsewhere j,
    hcomp.readV_of_ne, hcomp.flag_cases⟩

/-! ### The same sprite drawn again (R214) -/

namespace State.Composed

variable {s t u : State} {ox oy rows : Nat}

/-- Composing a sprite over itself turns every cell back. -/
theorem cell_twice (h : s.Composed ox oy rows t) (h' : t.Composed ox oy rows u)
    (hsprite : t.spriteCovers ox oy (List.range rows) = s.spriteCovers ox oy (List.range rows)) (j : Nat) :
    u.cell j = s.cell j := by
  rw [h'.cell_eq, h.cell_eq, hsprite, Bool.bne_assoc, bne_self_eq_false, Bool.bne_false]

/-- The cells a draw turned on are those that its sprite covers and that are on after it. -/
theorem turnedOn_iff (h : s.Composed ox oy rows t) (j : Nat) :
    s.spriteCovers ox oy (List.range rows) j = true ∧ t.cell j = true ↔ s.cell j = false ∧ t.cell j = true := by
  rw [h.cell_eq]
  cases s.cell j <;> cases s.spriteCovers ox oy (List.range rows) j <;> decide

end State.Composed

theorem flagByte_eq_zero_or_one (f : Bool) : flagByte f = 0 ∨ flagByte f = 1 := by
  cases f <;> decide

theorem flagByte_eq_one_iff (f : Bool) : flagByte f = 1 ↔ f = true := by
  cases f <;> decide

/-- Settles O35: the second draw covers the same cells, so it turns each back, and it collides where the first turned one on. -/
theorem drawTwiceRestoresCells : Obligations.DrawTwiceRestoresCells := by
  intro x y n s hrows hbacked
  obtain ⟨t, ht, hframe, hst⟩ := exec_drw_ok hrows x y hbacked
  refine ⟨t, ht, fun hx hy => ?_⟩
  have hcfg : t.cfg = s.cfg := by rw [hframe]
  have hi : t.i = s.i := by rw [hframe]
  have hsprite : t.spriteCovers (s.originX x) (s.originY y) (List.range n.toNat) =
      s.spriteCovers (s.originX x) (s.originY y) (List.range n.toNat) := by rw [hframe]; rfl
  obtain ⟨u, hu, -, htu⟩ := exec_drw_ok (s := t) (n := n) (hcfg ▸ hrows) x y (by rwa [hcfg, hi])
  rw [hx, hy] at htu
  refine ⟨u, hu, fun j _ => hst.cell_twice htu hsprite j, ?bit, ?collision⟩
  case bit => rw [htu.readV_flag]; exact flagByte_eq_zero_or_one _
  case collision =>
    rw [htu.readV_flag, flagByte_eq_one_iff, State.spriteCollides_iff_covers, hsprite]
    simp only [hst.turnedOn_iff]

/-! ### The port (R215) -/

/-- Column `x` of row `y` is cell `y · 64 + x` (R34). -/
theorem State.cell_of_row (s : State) (y : Nat) {x : Nat} (hx : x < 64) :
    s.cell (y * 64 + x) = (s.fb[y]?.getD 0).getLsbD x := by
  have hrow : (y * 64 + x) / 64 = y := by omega
  have hcol : (y * 64 + x) % 64 = x := by omega
  rw [State.cell, hrow, hcol]

/-- The port shows one byte for each index of the grid, in order. -/
theorem fbPort_of_fixedRows {s : State} (hrows : s.cfg.fixedRows) (on off : Byte) :
    fbPort on off s = (List.range 2048).map fun j => if s.cell j then on else off := by
  rw [fbPort, Config.fbW_of_fixedRows hrows, Config.fbH_of_fixedRows hrows]

/-- Settles O36: the bytes are those of the 2048 indices in order, and a row of the grid gives 64 of them. -/
theorem framebufferPortShowsCells : Obligations.FramebufferPortShowsCells := by
  refine ⟨fun s => rfl, fun on off s hrows => ?_⟩
  rw [fbPort_of_fixedRows hrows]
  refine ⟨by rw [List.length_map, List.length_range], fun x y hx hy => ?_⟩
  rw [List.getElem?_map, List.getElem?_range (by omega), Option.map_some, s.cell_of_row y hx]

end Sys2Proof.Machine
end

section
/-! SUPPORT. The keypad skips, the halt for a key and the tick that ends it, the timer registers and the unknown word
(44_keypad_timers.md). -/

namespace Sys2Proof

/-- A word keyed by its leading nibble and its trailing byte, given by its number (R82, format XSS). -/
theorem decode_trailing_ofNat {m : BnnnMode} {i : Instr} {x : Reg} (op : Nibble) (kk : Byte) (hwf : i.wf m = true)
    (hi : encode i = packXkk op x kk) :
    decode m (BitVec.ofNat 16 (0x1000 * op.toNat + kk.toNat + 0x100 * x.val)) = i := by
  refine decode_ofNat hwf ?_
  rw [hi, packXkk_toNat]
  omega

namespace Machine

/-! ### The halt for a key (R232, R275, R276) -/

/-- A pressed key resumes the core, the lowest one written to `V[HALT_REG]`. -/
theorem resumeIfKey_some {s : State} {k : Fin 16} (h : lowestPressed s.keys = some k) :
    s.resumeIfKey = { s.writeV s.haltReg (BitVec.ofNat 8 k.val) with run := .running } := by
  rw [State.resumeIfKey, h]

/-- An index of a key or of a register fits a byte. -/
theorem indexByte_toNat (k : Fin 16) : (BitVec.ofNat 8 k.val).toNat = k.val :=
  Nat.mod_eq_of_lt (k.isLt.trans (by decide))

/-- The state in which a tick finds a core that LD Vx, K halted, its keys sampled and its budget discarded (R275, R277). -/
def State.haltedAtTick (s : State) (x : Reg) (keys : BitVec 16) : State :=
  { s with run := .haltedForKey, haltReg := x, keys := keys, cycleAcc := 0 }

/-- A tick of a halted core is the resume and the timer update; no instruction runs (R276, R277). -/
theorem tick_halted (elapsed : Nat) (keys : BitVec 16) (x : Reg) (s : State) :
    tick elapsed keys { s with run := .haltedForKey, haltReg := x } =
      .next (timerUpdate elapsed (s.haltedAtTick x keys).resumeIfKey) := rfl

/-- Such a tick changes the keypad sample, the budget, the timer and what the resume writes. -/
theorem timerUpdate_resume_eq (elapsed : Nat) (keys : BitVec 16) (x : Reg) (s : State) :
    timerUpdate elapsed (s.haltedAtTick x keys).resumeIfKey = { s with
      run := (s.haltedAtTick x keys).resumeIfKey.run, haltReg := x, v := (s.haltedAtTick x keys).resumeIfKey.v,
      keys := keys, cycleAcc := 0, dt := (timerUpdate elapsed s).dt, timerAcc := (timerUpdate elapsed s).timerAcc } :=
  congrArg (timerUpdate elapsed) (resumeIfKey_eq (s.haltedAtTick x keys))

/-- Settles O38: the tick is the resume with the timer updated, and the resume looks for the lowest pressed key. -/
theorem haltWaitsForLowestKey : Obligations.HaltWaitsForLowestKey := by
  intro m x s elapsed keys
  refine ⟨decode_familyF_ofNat 0x0A rfl rfl, rfl, _, tick_halted elapsed keys x s,
    timerUpdate_resume_eq elapsed keys x s, fun hnone => ?none, fun k hk hlow => ?pressed⟩
  case none =>
    rw [resumeIfKey_none (s := s.haltedAtTick x keys) hnone]
    exact ⟨rfl, rfl⟩
  case pressed =>
    rw [resumeIfKey_some (s := s.haltedAtTick x keys) ((lowestPressed_spec keys k).2 ⟨hk, hlow⟩)]
    refine ⟨rfl, fun r => ?_⟩
    exact (s.readV_writeV_toNat x r (BitVec.ofNat 8 k.val)).trans (by rw [indexByte_toNat])

/-! ### The delay timer across instructions (R234, R271) -/

/-- No instruction starts `TIMER_ACC`: a write of `DT` clears or keeps it, and the other instructions leave it alone. -/
theorem exec_timerAcc_zero {ins : Instr} {s t : State} (h : exec ins s = .next t) (h0 : s.timerAcc = 0) :
    t.timerAcc = 0 := by
  by_cases hins : ∃ x, ins = .ldDtVx x
  · obtain ⟨x, rfl⟩ := hins
    refine holds_of_next (P := fun t => t.timerAcc = 0) h rfl ?_
    rw [State.setDelayTimer_timerAcc, h0, ite_self]
  · exact ((exec_frame h).delay (not_exists.1 hins)).2.trans h0

/-- A list of instructions answers and starts no `TIMER_ACC` either. -/
theorem execAll_timerAcc_zero (is : List Instr) (s : State) (h0 : s.timerAcc = 0) :
    ∃ u, execAll is s = .next u ∧ u.timerAcc = 0 := by
  induction is generalizing s with
  | nil => exact ⟨s, rfl, h0⟩
  | cons ins rest ih =>
    obtain ⟨t, ht⟩ := everyInstructionAnswers ins s
    rw [execAll_cons ht]
    exact ih t (exec_timerAcc_zero ht h0)

/-- Settles O53: the first write clears `TIMER_ACC`, and nothing that follows starts it again. -/
theorem stoppedTimerStartsAfresh : Obligations.StoppedTimerStartsAfresh := by
  intro x rest s hstopped
  exact execAll_timerAcc_zero rest (s.setDelayTimer (s.timerOperand x)) (if_pos hstopped.symm)

/-! ### The keypad skips (R230, R231) -/

/-- With an index of the keypad the skip tests the key. -/
theorem skipOnKey_of_lt {s : State} {x : Reg} (hrows : s.cfg.fixedRows) (hk : (s.readV x).toNat < 16) (wanted : Bool) :
    (skipOnKey x wanted s).finish = .next { s with
      pc := if s.keys.getLsbD (s.readV x).toNat = wanted then BitVec.ofNat 16 ((s.pc.toNat + 2) % 65536) else s.pc } := by
  rw [skipOnKey_finish, Config.numKeys_of_fixedRows hrows, if_neg (Nat.not_le.2 hk), s.skipIf_of_iff beq_iff_eq]

/-- An index past the keypad is fatal (D15). -/
theorem skipOnKey_of_le {s : State} {x : Reg} (hrows : s.cfg.fixedRows) (hk : 16 ≤ (s.readV x).toNat) (wanted : Bool) :
    (skipOnKey x wanted s).finish = .next (s.enterFatal .keyIndex) := by
  rw [skipOnKey_finish, Config.numKeys_of_fixedRows hrows, if_pos hk]

/-- Settles O37: SKP and SKNP are one test with the two values a key may have. -/
theorem keySkipsTestTheKey : Obligations.KeySkipsTestTheKey := by
  intro m x s hrows k past
  exact ⟨decode_trailing_ofNat 0xE 0x9E rfl rfl, decode_trailing_ofNat 0xE 0xA1 rfl rfl,
    fun hk => ⟨skipOnKey_of_lt hrows hk true, skipOnKey_of_lt hrows hk false⟩,
    fun hk => ⟨skipOnKey_of_le hrows hk true, skipOnKey_of_le hrows hk false⟩⟩

/-! ### The timer registers (R233 to R235) -/

/-- The operand of LD DT, Vx as a number, by `FX15_MODE` (R234, C5). -/
theorem State.timerOperand_toNat (s : State) (x : Reg) :
    (s.timerOperand x).toNat = if s.cfg.fx15Mode = .register then (s.readV x).toNat else x.val := by
  rw [State.timerOperand]
  cases s.cfg.fx15Mode
  case register => rfl
  case nibble => exact indexByte_toNat x

/-- `TIMER_ACC` after a write of `DT`, the two values of `DT` read as numbers (R234, R271). -/
theorem State.setDelayTimer_timerAcc_toNat (s : State) (u : Byte) :
    (s.setDelayTimer u).timerAcc = if s.dt.toNat = 0 ∨ u.toNat = 0 then 0 else s.timerAcc := by
  have hzero (b : Byte) : b.toNat = 0 ↔ b = 0 := BitVec.toNat_inj (y := 0#8)
  rw [State.setDelayTimer_timerAcc]
  simp only [hzero]

/-- Settles O39: a register written, the delay timer set, and `ST` set. -/
theorem timerRegistersMove : Obligations.TimerRegistersMove := by
  intro m x s
  exact ⟨⟨decode_familyF_ofNat 0x07 rfl rfl, s.writeV x s.dt, rfl, s.onlyRegisters_writeV x s.dt,
      fun r => s.readV_writeV x r s.dt⟩,
    ⟨decode_familyF_ofNat 0x15 rfl rfl, s.setDelayTimer (s.timerOperand x), rfl, fun _ => rfl, rfl,
      s.timerOperand_toNat x, s.setDelayTimer_timerAcc_toNat (s.timerOperand x)⟩,
    ⟨decode_familyF_ofNat 0x18 rfl rfl, { s with st := s.readV x }, rfl, fun _ => rfl, rfl⟩⟩

/-! ### The unknown word (R236, R283) -/

/-- The word at `PC` is the one a fetch reads, and the fetch changes nothing (R54). -/
theorem fetch_of_wordAtPc {s : State} {w : Word} (h : s.wordAtPc = some w) : fetch s = .ok w s := by
  by_cases hpc : s.pc.toNat + 1 < s.cfg.memSize
  · rw [State.wordAtPc, fetch_ok hpc] at h
    rw [fetch_ok hpc, Option.some.inj h]
  · rw [State.wordAtPc, fetch_raised (Nat.not_lt.1 hpc)] at h
    cases h

/-- Settles O40: outside the catalogue the decoder answers UNKNOWN, so the step is the advance of `PC` alone. -/
theorem unknownWordIsNoOp : Obligations.UnknownWordIsNoOp := by
  intro w s hcat
  have hdecode : decode s.cfg.bnnnMode w = .unknown w := (decode_eq_unknown_iff _ w).2 hcat
  refine ⟨hdecode, rfl, fun hrun hbatch hinputs hword => ?_⟩
  have hfetch := fetch_of_wordAtPc hword
  constructor
  · rw [step_free hrun hbatch hinputs, instrStep_of_fetch_ok hfetch, hdecode]
    rfl
  · simp only [diagPort, hrun, hfetch, hdecode, if_true]

end Machine
end Sys2Proof
end

section
/-! SUPPORT. FATAL (60_exceptions.md R260 to R262, 70_reset_and_hazards.md R302): which kinds an instruction can raise, and what a
core in FATAL still does. -/

namespace Sys2Proof.Machine

/-! ### The kinds an instruction raises (R262) -/

/-- A fatal condition in `t` is of a kind the table gives `ins`. -/
def RaisesOnly (ins : Instr) (t : State) : Prop := ∀ k, t.run = .fatal k → ins.mayRaise k = true

/-- A core that has not aborted is in no fatal condition. -/
theorem run_ne_fatal {s : State} (h : s.isFatal = false) (k : FatalKind) : s.run ≠ .fatal k := fun hk =>
  absurd ((isFatal_eq_true_iff s).2 ⟨k, hk⟩) (ne_true_of_eq_false h)

namespace RaisesOnly

variable {ins : Instr} {s t : State}

theorem of_run (hlive : s.isFatal = false) (hrun : t.run = s.run) : RaisesOnly ins t := fun k hk =>
  absurd (hrun.symm.trans hk) (run_ne_fatal hlive k)

theorem of_fatal {k : FatalKind} (hrun : t.run = .fatal k) (hk : ins.mayRaise k = true) : RaisesOnly ins t := by
  intro j hj
  rw [hrun] at hj
  cases hj
  exact hk

end RaisesOnly

/-- Every instruction raises only what the table gives it. A legal `SP` keeps the slot of a CALL or RET inside the backed bytes, so
that neither is a MEM_RANGE (R28, R50). -/
theorem exec_raisesOnly {ins : Instr} {s t : State} (hinv : s.inv) (hlive : s.isFatal = false)
    (h : exec ins s = .next t) : RaisesOnly ins t := by
  have hsteady := ((State.inv_iff s).1 hinv).1
  obtain ⟨-, htop, -⟩ := hsteady.sp
  obtain ⟨-, hstack, -⟩ := hsteady.cfg
  cases ins
  case ret =>
    rcases execRet_cases s with ⟨u, e, -⟩ | ⟨e, -⟩ | ⟨-, hused, hunbacked⟩
    · exact holds_of_next h e (.of_run hlive rfl)
    · exact holds_of_next h e (.of_fatal rfl rfl)
    · omega
  case call nnn =>
    rcases execCall_cases nnn s with ⟨e, -⟩ | ⟨-, m, e | ⟨-, hunbacked⟩, -⟩
    · exact holds_of_next h e (.of_fatal rfl rfl)
    · exact holds_of_next h e (.of_run hlive rfl)
    · omega
  case skp x | sknp x =>
    refine holds_of_next h (skipOnKey_finish x _ s) ?_
    split
    · exact .of_fatal rfl rfl
    · exact .of_run hlive (s.skipIf_run _)
  case ldB x =>
    obtain ⟨m, e | e, -⟩ := storeBytes_finish_cases (s.transferAddress 0) (bcdDigits (s.readV x)) s
    · exact holds_of_next h e (.of_run hlive rfl)
    · exact holds_of_next h e (.of_fatal rfl rfl)
  case dump x =>
    obtain ⟨m, e | e, -⟩ := storeBytes_finish_cases (s.transferAddress 0) (s.valuesUpTo x) s
    · exact holds_of_next h e (.of_run hlive rfl)
    · exact holds_of_next h e (.of_fatal rfl rfl)
  case load x =>
    obtain ⟨u, hu, e | e, -⟩ := execLoad_cases x s
    · exact holds_of_next h e (.of_run hlive (by rw [hu]))
    · exact holds_of_next h e (.of_fatal rfl rfl)
  case drw x y n =>
    obtain ⟨u, hu, e | e, -⟩ := execDrw_cases x y n s
    · exact holds_of_next h e (.of_run hlive (by rw [hu]))
    · exact holds_of_next h e (.of_fatal rfl rfl)
  case ldVxK x => exact holds_of_next h rfl (fun _ hk => nomatch hk)
  case seKk | sneKk | seVy | sneVy => exact holds_of_next h rfl (.of_run hlive (s.skipIf_run _))
  case addVy | subVy | shr | subnVy | shl => exact holds_of_next h rfl (.of_run hlive (s.writeResultAndFlag_run _ _ _))
  all_goals exact holds_of_next h rfl (.of_run hlive rfl)

/-- Settles O11: instruction by instruction. -/
theorem fatalKindsByInstruction : Obligations.FatalKindsByInstruction :=
  fun _ _ _ k hinv hlive h hk => exec_raisesOnly hinv hlive h k hk

/-! ### A core in FATAL (R261, R302) -/

/-- A core that has aborted waits for a reset. -/
theorem step_aborted {k : FatalKind} {s : State} (h : s.run = .fatal k) : step s = abortedStep k s := by
  rw [step, machineStep, h]

/-- Settles O44: the aborted step by the input at hand, and the whole tick by its first case. -/
theorem fatalStateIsFrozen : Obligations.FatalStateIsFrozen := by
  intro k s hrun
  rw [step_aborted hrun]
  refine ⟨fun elapsed keys => ?tick, fun elapsed keys rest hi => ?tickStep, fun image rest hi => ?reset, fun hi => ?noInput⟩
  case tick => rw [tick, hrun]
  case tickStep => rw [abortedStep, hi]
  case reset => rw [abortedStep, hi]; rfl
  case noInput => rw [abortedStep, hi]

end Sys2Proof.Machine
end

section
/-! SUPPORT. The delay timer as numbers, and a batch against its budget (60_exceptions.md R270 to R275, R279). -/

namespace Sys2Proof.Machine

/-! ### The delay timer (R270, R271) -/

/-- The timer update leaves in `DT` what the decay loop leaves. -/
theorem timerUpdate_dt_toNat (elapsed : Nat) (s : State) :
    (timerUpdate elapsed s).dt.toNat = (decay s.cfg.tTimer s.dt.toNat (s.timerAcc + elapsed)).1 :=
  Nat.mod_eq_of_lt ((decay_le _ _ _).trans_lt s.dt.isLt)

theorem timerUpdate_timerAcc (elapsed : Nat) (s : State) : (timerUpdate elapsed s).timerAcc =
    if (timerUpdate elapsed s).dt = 0 then 0 else (decay s.cfg.tTimer s.dt.toNat (s.timerAcc + elapsed)).2 := by
  have hzero : (timerUpdate elapsed s).dt = 0 ↔ (decay s.cfg.tTimer s.dt.toNat (s.timerAcc + elapsed)).1 = 0 := by
    rw [← timerUpdate_dt_toNat]
    exact BitVec.toNat_inj (y := 0#8).symm
  exact if_congr hzero.symm rfl rfl

/-- Settles O41: the decay loop in closed form. While `DT` is above 0 every full period has been taken, so the remainder is left. -/
theorem delayTimerDecays : Obligations.DelayTimerDecays := by
  intro elapsed s hT total
  have hdt : (timerUpdate elapsed s).dt.toNat = s.dt.toNat - total / s.cfg.tTimer := by
    rw [timerUpdate_dt_toNat, decay_spec _ _ _ hT]
  refine ⟨timerUpdate elapsed s, rfl, timerUpdate_eq elapsed s, hdt, ?_⟩
  rw [timerUpdate_timerAcc, decay_spec _ _ _ hT]
  refine ite_congr rfl (fun _ => rfl) fun hne => ?_
  have hpos : (timerUpdate elapsed s).dt.toNat ≠ 0 := fun h0 => hne (BitVec.eq_of_toNat_eq h0)
  have hmin : min s.dt.toNat (total / s.cfg.tTimer) = total / s.cfg.tTimer := by omega
  show total - s.cfg.tTimer * min s.dt.toNat (total / s.cfg.tTimer) = total % s.cfg.tTimer
  rw [hmin, Nat.mod_eq_sub_mul_div]

/-! ### An instruction step and the scheduler's fields (R37, R57) -/

/-- An instruction step leaves the budget, the parameters and the record of ticks alone. -/
theorem instrStep_frame {s t : State} (h : instrStep s = .next t) :
    t.cycleAcc = s.cycleAcc ∧ t.cfg = s.cfg ∧ t.batch = s.batch ∧ t.inputs = s.inputs := by
  rcases instrStep_cases h with ⟨ins, e⟩ | rfl
  · have f := exec_frame e
    exact ⟨f.cycleAcc, f.cfg, f.batch, f.inputs⟩
  · exact ⟨rfl, rfl, rfl, rfl⟩

/-- An instruction step with the scheduler's fields set ends with them set. -/
theorem instrStep_paced_next {s t : State} (h : instrStep s = .next t) (cyc : Nat) {tim : Nat → Nat} (h0 : tim 0 = 0)
    (b : Option Nat) (inp : List Input) : instrStep (s.paced cyc tim b inp) = .next (t.paced cyc tim b inp) := by
  rw [instrStep_paced cyc tim b inp h0, h]
  rfl

/-- An instruction step does not look at the budget. -/
theorem instrStep_setBudget {s t : State} (h : instrStep s = .next t) (budget : Nat) :
    instrStep { s with cycleAcc := budget } = .next { t with cycleAcc := budget } := by
  obtain ⟨-, -, hbatch, hinputs⟩ := instrStep_frame h
  have hend : t.paced budget id s.batch s.inputs = { t with cycleAcc := budget } := by
    rw [← hbatch, ← hinputs]
    rfl
  exact (instrStep_paced_next h budget rfl s.batch s.inputs).trans (congrArg _ hend)

/-- An instruction step always answers a next state. -/
theorem instrStep_answers (s : State) : ∃ t, instrStep s = .next t := by
  unfold instrStep
  cases fetch s
  case ok w u => exact everyInstructionAnswers _ _
  case raised k u => exact ⟨_, rfl⟩

theorem instrSteps_succ {s t : State} (h : instrStep s = .next t) (n : Nat) : instrSteps (n + 1) s = instrSteps n t := by
  rw [instrSteps, h]

/-! ### The batch loop (R273, R274) -/

/-- A batch goes on when RUNNING with more than one instruction's time left. -/
theorem batchGoes_iff (s : State) : batchGoes s = true ↔ s.run = .running ∧ s.cfg.tInstr < s.cycleAcc := by
  simp [batchGoes]

theorem batchGoes_of_ne {s : State} (h : s.run ≠ .running) : batchGoes s = false :=
  Bool.eq_false_of_not_eq_true fun hgoes => h (run_of_batchGoes hgoes)

theorem batchGoes_of_le {s : State} (h : s.cycleAcc ≤ s.cfg.tInstr) : batchGoes s = false :=
  Bool.eq_false_of_not_eq_true fun hgoes => absurd ((batchGoes_iff s).1 hgoes).2 (Nat.not_lt.2 h)

theorem batchLoop_goes {n : Nat} {s t : State} (hgoes : batchGoes s = true) (h : instrStep s = .next t) :
    batchLoop (n + 1) s = batchLoop n (deduct t) := by
  rw [batchLoop, if_pos hgoes, h]

/-- While the core stays RUNNING and the budget reaches that far, the loop is `count` instruction steps and their deductions. -/
theorem batchLoop_instrSteps (count n budget : Nat) {s u : State}
    (hrun : ∀ j v, j < count → instrSteps j s = .next v → v.run = .running)
    (hbudget : count = 0 ∨ count * s.cfg.tInstr < budget) (h : instrSteps count s = .next u) :
    batchLoop (count + n) { s with cycleAcc := budget } =
      batchLoop n { u with cycleAcc := budget - count * s.cfg.tInstr } := by
  induction count generalizing s budget with
  | zero =>
    obtain rfl := Host.Outcome.next.inj h
    rw [Nat.zero_add, Nat.zero_mul, Nat.sub_zero]
  | succ count ih =>
    obtain ⟨t, ht⟩ := instrStep_answers s
    obtain ⟨-, hcfg, -⟩ := instrStep_frame ht
    have hspent : count * s.cfg.tInstr + s.cfg.tInstr < budget := by
      rw [← Nat.succ_mul]
      exact hbudget.resolve_left (Nat.succ_ne_zero count)
    have hgoes : batchGoes { s with cycleAcc := budget } = true :=
      (batchGoes_iff _).2 ⟨hrun 0 s (Nat.succ_pos count) rfl, show s.cfg.tInstr < budget by omega⟩
    have hrest := ih (s := t) (budget - s.cfg.tInstr)
      (fun j v hj hv => hrun (j + 1) v (Nat.succ_lt_succ hj) ((instrSteps_succ ht j).trans hv))
      (.inr (by rw [hcfg]; omega)) ((instrSteps_succ ht count).symm.trans h)
    rw [hcfg, Nat.sub_sub, Nat.add_comm s.cfg.tInstr, ← Nat.succ_mul] at hrest
    rw [Nat.add_right_comm, batchLoop_goes hgoes (instrStep_setBudget ht budget), ← hrest, ← hcfg]
    rfl

/-! ### A whole batch -/

/-- A batch is its loop over the whole budget, and the discard on a halt (R273, R274). -/
theorem runBatch_of_batchLoop {elapsed : Nat} {s t : State}
    (h : batchLoop ((s.cycleAcc + elapsed) / s.cfg.tInstr + 1) { s with cycleAcc := s.cycleAcc + elapsed } = .next t) :
    runBatch elapsed s = .next (discardIfHalted t) := by
  unfold runBatch
  dsimp only
  rw [h]

/-- Instructions that use up a batch, its loop stopping behind them, are what the batch executes. -/
theorem runBatch_of_instrSteps (count : Nat) {elapsed : Nat} {s u : State}
    (hrun : ∀ j v, j < count → instrSteps j s = .next v → v.run = .running)
    (hbudget : count = 0 ∨ count * s.cfg.tInstr < s.cycleAcc + elapsed)
    (hturns : count ≤ (s.cycleAcc + elapsed) / s.cfg.tInstr + 1) (h : instrSteps count s = .next u)
    (hstop : batchGoes { u with cycleAcc := s.cycleAcc + elapsed - count * s.cfg.tInstr } = false) :
    runBatch elapsed s = .next (discardIfHalted { u with cycleAcc := s.cycleAcc + elapsed - count * s.cfg.tInstr }) := by
  obtain ⟨n, hn⟩ := Nat.exists_eq_add_of_le hturns
  refine runBatch_of_batchLoop ?_
  rw [hn, batchLoop_instrSteps count n _ hrun hbudget h, batchLoop_stop hstop]

theorem instrSteps_cfg {n : Nat} {s t : State} (h : instrSteps n s = .next t) : t.cfg = s.cfg := by
  induction n generalizing s with
  | zero => rw [Host.Outcome.next.inj h]
  | succ n ih =>
    obtain ⟨u, hu⟩ := instrStep_answers s
    rw [instrSteps_succ hu] at h
    exact (ih h).trans (instrStep_frame hu).2.1

/-- `⌈A / T⌉ − 1` times `T` is less than `A`, unless it is 0, and leaves at most `T` of it (R279). -/
theorem ceil_pred_spec (A : Nat) {T : Nat} (hT : 0 < T) :
    ((A + T - 1) / T - 1 = 0 ∨ ((A + T - 1) / T - 1) * T < A) ∧ A ≤ ((A + T - 1) / T - 1) * T + T := by
  have hle := Nat.div_mul_le_self (A + T - 1) T
  have hlt := Nat.lt_div_mul_add (a := A + T - 1) hT
  cases hq : (A + T - 1) / T with
  | zero =>
    rw [hq, Nat.zero_mul] at hlt
    exact ⟨.inl rfl, by omega⟩
  | succ c =>
    rw [hq, Nat.succ_mul] at hle hlt
    rw [Nat.add_sub_cancel]
    exact ⟨.inr (by omega), by omega⟩

/-- The loop's bound allows every count of turns whose time the budget exceeds, and the first turn in any case. -/
theorem turns_le {count A T : Nat} (hT : 0 < T ∨ count ≤ 1) (h : count = 0 ∨ count * T < A) : count ≤ A / T + 1 := by
  rcases h with rfl | h
  · exact Nat.zero_le _
  rcases hT with hT | hone
  · exact Nat.le_succ_of_le ((Nat.le_div_iff_mul_le hT).2 h.le)
  · exact hone.trans (Nat.le_add_left 1 _)

theorem discardIfHalted_of_ne {s : State} (h : s.run ≠ .haltedForKey) : discardIfHalted s = s := if_neg h

theorem discardIfHalted_halted {s : State} (h : s.run = .haltedForKey) : discardIfHalted s = { s with cycleAcc := 0 } := if_pos h

/-- Settles O42: the count of instructions leaves at most one instruction's time, so the loop stops there, RUNNING. -/
theorem batchSpendsItsBudget : Obligations.BatchSpendsItsBudget := by
  intro elapsed s u hT _ budget count hrun hu
  obtain ⟨hbudget, hleft⟩ := ceil_pred_spec budget hT
  have hrunning : u.run = .running := hrun count u le_rfl hu
  have hstop : batchGoes { u with cycleAcc := budget - count * s.cfg.tInstr } = false := by
    refine batchGoes_of_le ?_
    rw [instrSteps_cfg hu]
    exact Nat.sub_le_iff_le_add'.2 hleft
  rw [runBatch_of_instrSteps count (fun j v hj => hrun j v hj.le) hbudget (turns_le (.inl hT) hbudget) hu hstop]
  exact congrArg _ (discardIfHalted_of_ne (by simp [hrunning]))

/-- Whatever a batch ends with has been through the discard of R274. -/
theorem runBatch_cases {elapsed : Nat} {s t : State} (h : runBatch elapsed s = .next t) :
    ∃ u, t = discardIfHalted u := by
  unfold runBatch at h
  dsimp only at h
  split at h
  next u hu => exact ⟨u, (Host.Outcome.next.inj h).symm⟩
  next => cases h
  next => cases h

/-- After the discard a halted core has no budget. -/
theorem discardIfHalted_cycleAcc {s : State} (h : (discardIfHalted s).run = .haltedForKey) :
    (discardIfHalted s).cycleAcc = 0 := by
  have hhalt : s.run = .haltedForKey := by
    rw [discardIfHalted_eq] at h
    exact h
  rw [discardIfHalted_halted hhalt]

/-- Settles O43: the halting instruction is the last one of its batch, because the loop goes on from RUNNING only. -/
theorem haltEndsBatch : Obligations.HaltEndsBatch := by
  refine ⟨fun elapsed s t h hhalt => ?_, fun k elapsed s u hT hrun hbudget hu hhalt => ?_⟩
  · obtain ⟨u, rfl⟩ := runBatch_cases h
    exact discardIfHalted_cycleAcc hhalt
  · have hturns : k + 1 ≤ (s.cycleAcc + elapsed) / s.cfg.tInstr + 1 :=
      turns_le (hT.imp_right fun hk => by rw [hk]) (.inr hbudget)
    have hstop : batchGoes { u with cycleAcc := s.cycleAcc + elapsed - (k + 1) * s.cfg.tInstr } = false :=
      batchGoes_of_ne (by simp [hhalt])
    rw [runBatch_of_instrSteps (k + 1) (fun j v hj => hrun j v (Nat.le_of_lt_succ hj)) (.inr hbudget) hturns hu hstop]
    exact congrArg _ (discardIfHalted_halted hhalt)

end Sys2Proof.Machine
end

section
/-! SUPPORT. The machine's steps against the whole tick of the spec (60_exceptions.md R273 to R277): inside a tick they do what the
batch loop and the end of the tick do. -/

namespace Sys2Proof.Machine

/-! ### One step, by what is at hand -/

theorem isFatal_of_running {s : State} (h : s.run = .running) : s.isFatal = false := by rw [State.isFatal, h]

theorem isFatal_of_halted {s : State} (h : s.run = .haltedForKey) : s.isFatal = false := by rw [State.isFatal, h]

/-- Between ticks a tick at hand starts. -/
theorem step_beginTick {s : State} {elapsed : Nat} {keys : BitVec 16} {rest : List Input} (hlive : s.isFatal = false)
    (hbatch : s.batch = none) (hinputs : s.inputs = .tick elapsed keys :: rest) :
    step s = .next (beginTick elapsed keys { s with inputs := rest }) := by
  rw [step_live hlive, liveStep, hbatch, hinputs]

/-- A tick whose batch is over ends. -/
theorem step_endTick {s : State} {elapsed : Nat} (hlive : s.isFatal = false) (hbatch : s.batch = some elapsed)
    (hstop : batchGoes s = false) : step s = .next (endTick elapsed s) := by
  rw [step_live hlive, liveStep, hbatch]
  exact if_neg (ne_true_of_eq_false hstop)

theorem steps_succ {n : Nat} {s t : State} (h : step s = .next t) : steps (n + 1) s = steps n t := by
  rw [steps, h]

/-! ### A running tick (R273, R274, R277) -/

/-- The end of the spec's tick after its batch: the discard on a halt, and the timer unless the core aborted. -/
def tickEnd (elapsed : Nat) (s : State) : State :=
  if (discardIfHalted s).isFatal then discardIfHalted s else timerUpdate elapsed (discardIfHalted s)

theorem tickEnd_live {elapsed : Nat} {s : State} (h : s.isFatal = false) :
    tickEnd elapsed s = timerUpdate elapsed (discardIfHalted s) :=
  if_neg (by simp [h])

theorem tickEnd_fatal {elapsed : Nat} {s : State} (h : s.isFatal = true) : tickEnd elapsed s = s := by
  obtain ⟨k, hk⟩ := (isFatal_eq_true_iff s).1 h
  rw [tickEnd, isFatal_discardIfHalted, if_pos h, discardIfHalted_of_ne (by simp [hk])]

/-- A tick of a running core is its batch loop and the tick's end. -/
theorem tick_of_batchLoop {elapsed : Nat} {keys : BitVec 16} {s t : State} (hrun : s.run = .running)
    (h : batchLoop ((s.cycleAcc + elapsed) / s.cfg.tInstr + 1)
      { s with keys := keys, cycleAcc := s.cycleAcc + elapsed } = .next t) :
    tick elapsed keys s = .next (tickEnd elapsed t) := by
  have hbatch : runBatch elapsed { s with keys := keys } = .next (discardIfHalted t) := runBatch_of_batchLoop h
  rw [hrun] at hbatch
  rw [tick, hrun]
  dsimp only
  rw [hbatch]
  rfl

/-- A state between ticks put inside a tick. -/
def State.inTick (s : State) (elapsed : Nat) : State := { s with batch := some elapsed }

/-- An instruction step does not look at the record of ticks. -/
theorem instrStep_inTick {s t : State} (h : instrStep s = .next t) (elapsed : Nat) :
    instrStep (s.inTick elapsed) = .next (t.inTick elapsed) := by
  obtain ⟨hbudget, -, -, hinputs⟩ := instrStep_frame h
  have hend : t.paced s.cycleAcc id (some elapsed) s.inputs = t.inTick elapsed := by
    rw [← hbudget, ← hinputs]
    rfl
  exact (instrStep_paced_next h s.cycleAcc rfl (some elapsed) s.inputs).trans (congrArg _ hend)

/-- A core that has not aborted goes on with its tick. -/
theorem closeIfFatal_live {s : State} (h : s.isFatal = false) : closeIfFatal s = s := if_neg (ne_true_of_eq_false h)

/-- A core that aborts in a tick stands between ticks again. -/
theorem closeIfFatal_inTick {s : State} (h : s.isFatal = true) (hbatch : s.batch = none) (elapsed : Nat) :
    closeIfFatal (s.inTick elapsed) = s := by
  have hclosed : closeIfFatal (s.inTick elapsed) = { s with batch := none } := if_pos h
  rw [hclosed, ← hbatch]

/-- The end of a tick in progress is what the spec's tick does after its batch. -/
theorem endTick_inTick (elapsed : Nat) {s : State} (hlive : s.isFatal = false) (hbatch : s.batch = none) :
    endTick elapsed (s.inTick elapsed) = tickEnd elapsed s := by
  rw [tickEnd_live hlive, endTick]
  by_cases hhalt : s.run = .haltedForKey
  · rw [discardIfHalted_halted (s := s.inTick elapsed) hhalt, discardIfHalted_halted hhalt, ← hbatch]
    rfl
  · rw [discardIfHalted_of_ne (s := s.inTick elapsed) hhalt, discardIfHalted_of_ne hhalt, ← hbatch]
    rfl

/-- A step inside a tick whose batch is over ends the tick. -/
theorem step_inTick_end (elapsed : Nat) {s : State} (hlive : s.isFatal = false) (hbatch : s.batch = none)
    (hstop : batchGoes s = false) : step (s.inTick elapsed) = .next (tickEnd elapsed s) := by
  rw [step_endTick (s := s.inTick elapsed) hlive rfl hstop, endTick_inTick elapsed hlive hbatch]

/-- A step inside a tick with time left runs an instruction, which ends the tick when it aborts. -/
theorem step_inTick_instr (elapsed : Nat) {s t : State} (hgoes : batchGoes s = true) (h : instrStep s = .next t) :
    step (s.inTick elapsed) = .next (closeIfFatal ((deduct t).inTick elapsed)) := by
  obtain ⟨hrun, htime⟩ := (batchGoes_iff s).1 hgoes
  rw [step_batch (s := s.inTick elapsed) hrun rfl htime, batchInstr_next (instrStep_inTick h elapsed)]
  rfl

/-- Where the batch is over, so is its loop, and one step ends the tick. -/
theorem steps_inTick_end (elapsed n : Nat) {s : State} (hlive : s.isFatal = false) (hbatch : s.batch = none)
    (hstop : batchGoes s = false) :
    ∃ k t, batchLoop n s = .next t ∧ steps k (s.inTick elapsed) = .next (tickEnd elapsed t) :=
  ⟨1, s, batchLoop_stop hstop, steps_one (step_inTick_end elapsed hlive hbatch hstop)⟩

/-- With turns enough for the budget, the steps from inside a tick do what the batch loop and the tick's end do. -/
theorem steps_inTick (elapsed n : Nat) {s : State} (hT : 0 < s.cfg.tInstr) (hlive : s.isFatal = false)
    (hbatch : s.batch = none) (hturns : s.cycleAcc ≤ n * s.cfg.tInstr) :
    ∃ k t, batchLoop n s = .next t ∧ steps k (s.inTick elapsed) = .next (tickEnd elapsed t) := by
  induction n generalizing s with
  | zero => exact steps_inTick_end elapsed 0 hlive hbatch (batchGoes_of_le (by omega))
  | succ n ih =>
    cases hgoes : batchGoes s
    case false => exact steps_inTick_end elapsed (n + 1) hlive hbatch hgoes
    case true =>
      obtain ⟨t, ht⟩ := instrStep_answers s
      obtain ⟨hbudget, hcfg, hrecord, -⟩ := instrStep_frame ht
      have hstep := step_inTick_instr elapsed hgoes ht
      have hidle : (deduct t).batch = none := hrecord.trans hbatch
      rw [batchLoop_goes hgoes ht]
      cases hfatal : (deduct t).isFatal
      case false =>
        have hleft : (deduct t).cycleAcc ≤ n * (deduct t).cfg.tInstr := by
          show t.cycleAcc - t.cfg.tInstr ≤ n * t.cfg.tInstr
          rw [hbudget, hcfg, Nat.sub_le_iff_le_add, ← Nat.succ_mul]
          exact hturns
        obtain ⟨k, u, hloop, hsteps⟩ := ih (s := deduct t) (hcfg ▸ hT) hfatal hidle hleft
        refine ⟨k + 1, u, hloop, ?_⟩
        rw [steps_succ hstep, closeIfFatal_live (s := (deduct t).inTick elapsed) hfatal, hsteps]
      case true =>
        have hstop : batchGoes (deduct t) = false := batchGoes_of_ne fun hrun => by
          rw [isFatal_of_running hrun] at hfatal
          cases hfatal
        refine ⟨1, deduct t, batchLoop_stop hstop, steps_one ?_⟩
        rw [hstep, closeIfFatal_inTick hfatal hidle, tickEnd_fatal hfatal]

/-- The bound of the batch loop is turns enough for its budget (R273). -/
theorem le_turns_mul (A : Nat) {T : Nat} (hT : 0 < T) : A ≤ (A / T + 1) * T := by
  rw [Nat.succ_mul]
  exact (Nat.lt_div_mul_add hT).le

/-! ### The whole tick -/

theorem tick_of_halted {s : State} (h : s.run = .haltedForKey) (elapsed : Nat) (keys : BitVec 16) :
    tick elapsed keys s = .next (haltedTick elapsed { s with keys := keys }) := by
  rw [tick, h]

/-- A halted core's tick is over when it has started (R275, R277). -/
theorem beginTick_of_halted {s : State} (h : s.run = .haltedForKey) (elapsed : Nat) (keys : BitVec 16) :
    beginTick elapsed keys s = haltedTick elapsed { s with keys := keys } := if_pos h

/-- The tick of a core that is not halted starts with the sample and the budget of a batch (R273, R277). -/
theorem beginTick_of_ne {s : State} (h : s.run ≠ .haltedForKey) (elapsed : Nat) (keys : BitVec 16) :
    beginTick elapsed keys s =
      ({ s with keys := keys, cycleAcc := s.cycleAcc + elapsed } : State).inTick elapsed :=
  if_neg h

/-- Settles O45: one step in FATAL and from a halted core; from a running one the start of the tick, its batch, and its end. -/
theorem stepsPerformWholeTick : Obligations.StepsPerformWholeTick := by
  intro elapsed keys rest s hT hbatch hinputs
  obtain ⟨r, hrun⟩ : ∃ r, s.run = r := ⟨_, rfl⟩
  cases r
  case fatal k =>
    obtain ⟨htick, -⟩ := fatalStateIsFrozen k { s with inputs := rest } hrun
    obtain ⟨-, hstep, -⟩ := fatalStateIsFrozen k s hrun
    exact ⟨1, _, one_pos, htick elapsed keys, steps_one (hstep elapsed keys rest hinputs)⟩
  case haltedForKey =>
    refine ⟨1, _, one_pos, tick_of_halted (s := { s with inputs := rest }) hrun elapsed keys, steps_one ?_⟩
    rw [step_beginTick (isFatal_of_halted hrun) hbatch hinputs, beginTick_of_halted (s := { s with inputs := rest }) hrun]
  case running =>
    have hlive := isFatal_of_running hrun
    obtain ⟨k, t, hloop, hsteps⟩ := steps_inTick elapsed ((s.cycleAcc + elapsed) / s.cfg.tInstr + 1)
      (s := { s with inputs := rest, keys := keys, cycleAcc := s.cycleAcc + elapsed }) hT hlive hbatch
      (le_turns_mul _ hT)
    refine ⟨k + 1, _, Nat.succ_pos k, tick_of_batchLoop (s := { s with inputs := rest }) hrun hloop, ?_⟩
    have hne : s.run ≠ .haltedForKey := by simp [hrun]
    rw [steps_succ (step_beginTick hlive hbatch hinputs), beginTick_of_ne (s := { s with inputs := rest }) hne, hsteps]

end Sys2Proof.Machine
end

section
/-! SUPPORT. The machine's steps as moves of the relation of 60_exceptions.md R285, the halt for a key between ticks, and the end of
a run (60_exceptions.md R272, R276, R286). -/

namespace Sys2Proof.Machine

open Relation (ReflTransGen)

/-! ### The state without its pacing (R285) -/

theorem unpaced_discardIfHalted (s : State) : (discardIfHalted s).unpaced = s.unpaced := by
  rw [discardIfHalted_eq]
  rfl

theorem unpaced_closeIfFatal_deduct (s : State) : (closeIfFatal (deduct s)).unpaced = s.unpaced := by
  rw [closeIfFatal_deduct]
  rfl

/-- The resume looks at the keys and writes a register and `RUN`, none of which is pacing. -/
theorem unpaced_resumeIfKey (s : State) : s.resumeIfKey.unpaced = s.unpaced.resumeIfKey := by
  cases h : lowestPressed s.keys with
  | none =>
    have hkeys := (lowestPressed_none s.keys).1 h
    rw [resumeIfKey_none hkeys, resumeIfKey_none (s := s.unpaced) hkeys]
  | some k =>
    rw [resumeIfKey_some h, resumeIfKey_some (s := s.unpaced) h]
    rfl

/-! ### The moves behind each event (R285) -/

/-- `DT` comes down to any value by decrements, move (c). -/
theorem moves_lowerDt {s : State} (hlive : s.isFatal = false) (u : Byte) (h : u.toNat ≤ s.dt.toNat) :
    ReflTransGen Move s { s with dt := u } := by
  obtain ⟨d, hd⟩ := Nat.exists_eq_add_of_le h
  clear h
  induction d generalizing u with
  | zero =>
    obtain rfl : s.dt = u := BitVec.eq_of_toNat_eq hd
    exact .refl
  | succ d ih =>
    have hbyte := s.dt.isLt
    have hnext : (u + 1).toNat = u.toNat + 1 := by bv_omega
    have hmove : Move { s with dt := u + 1 } { s with dt := u + 1 - 1 } :=
      .decrement { s with dt := u + 1 } hlive fun h0 => by
        have h0' : (u + 1).toNat = 0 := congrArg BitVec.toNat h0
        omega
    rw [BitVec.add_sub_cancel] at hmove
    exact .tail (ih (u + 1) (by omega)) hmove

/-- A timer update is decrements, the pacing left out. -/
theorem moves_timerUpdate (elapsed : Nat) {s : State} (hlive : s.isFatal = false) :
    ReflTransGen Move s.unpaced (timerUpdate elapsed s).unpaced := by
  refine moves_lowerDt (s := s.unpaced) hlive (timerUpdate elapsed s).dt ?_
  rw [timerUpdate_dt_toNat]
  exact decay_le _ _ _

/-- The resume is move (d), or none with no key pressed. -/
theorem moves_resumeIfKey {s : State} (hrun : s.run = .haltedForKey) : ReflTransGen Move s s.resumeIfKey := by
  by_cases hkeys : s.keys = 0
  · rw [resumeIfKey_none hkeys]
  · exact .single (.resume s hrun hkeys)

/-- An instruction step is move (a), the pacing left out. -/
theorem moves_instrStep {s t : State} (hrun : s.run = .running) (h : instrStep s = .next t) :
    ReflTransGen Move s.unpaced t.unpaced :=
  .single (.instr s.unpaced t.unpaced hrun (instrStep_paced_next h 0 (tim := fun _ => 0) rfl none []))

/-- The tick of a halted core is a resume and decrements. -/
theorem moves_haltedTick (elapsed : Nat) {s : State} (hrun : s.run = .haltedForKey) :
    ReflTransGen Move s.unpaced (haltedTick elapsed s).unpaced := by
  have hresume : ReflTransGen Move s.unpaced { s with cycleAcc := 0 }.resumeIfKey.unpaced := by
    rw [unpaced_resumeIfKey]
    exact moves_resumeIfKey (s := s.unpaced) hrun
  exact hresume.trans (moves_timerUpdate elapsed (isFatal_resumeIfKey (s := { s with cycleAcc := 0 }) (isFatal_of_halted hrun)))

/-- The start of a tick is the keypad sample, move (b), and from a halted core the whole of its tick. -/
theorem moves_beginTick (elapsed : Nat) (keys : BitVec 16) {s : State} (hlive : s.isFatal = false) :
    ReflTransGen Move s.unpaced (beginTick elapsed keys s).unpaced := by
  have hsample : Move s.unpaced { s with keys := keys }.unpaced := .sample s.unpaced keys hlive
  by_cases hrun : s.run = .haltedForKey
  · rw [beginTick_of_halted hrun]
    exact .head hsample (moves_haltedTick elapsed (s := { s with keys := keys }) hrun)
  · rw [beginTick_of_ne hrun]
    exact .single hsample

/-- The end of a tick is decrements. -/
theorem moves_endTick (elapsed : Nat) {s : State} (hlive : s.isFatal = false) :
    ReflTransGen Move s.unpaced (endTick elapsed s).unpaced := by
  rw [← unpaced_discardIfHalted]
  exact moves_timerUpdate elapsed ((isFatal_discardIfHalted s).trans hlive)

/-- Settles O46: event by event; a reset and a tick that passes in FATAL are excluded. -/
theorem stepsAreMovesOfTheRelation : Obligations.StepsAreMovesOfTheRelation := by
  intro s t hlive hnoReset h
  cases stepEvent_of_step h with
  | reset image rest hwhen hi =>
    rcases hwhen with hfatal | hb
    · exact absurd hfatal (ne_true_of_eq_false hlive)
    · exact absurd hi (hnoReset hb image rest)
  | fatalTick _ _ _ hfatal => exact absurd hfatal (ne_true_of_eq_false hlive)
  | beginTick elapsed keys rest => exact moves_beginTick elapsed keys (s := { s with inputs := rest }) hlive
  | batchInstr elapsed u hb hgoes hu =>
    rw [unpaced_closeIfFatal_deduct]
    exact moves_instrStep (run_of_batchGoes hgoes) hu
  | endTick elapsed => exact moves_endTick elapsed hlive
  | instr _ hrun _ _ hu => exact moves_instrStep hrun hu
  | resume hrun =>
    rw [unpaced_resumeIfKey]
    exact moves_resumeIfKey (s := s.unpaced) hrun

/-! ### The halt for a key between ticks (R272, R276, R315) -/

/-- `t` is RUNNING with its lowest pressed key in `V[HALT_REG]`, or halted with no key pressed and the registers of `s`. -/
def ResumedByKey (s t : State) : Prop :=
  t.pc = s.pc ∧ (t.keys = 0 → t.run = .haltedForKey ∧ t.v = s.v) ∧
    (t.keys ≠ 0 → t.run = .running ∧ ∃ k : Fin 16, lowestPressed t.keys = some k ∧ (t.readV s.haltReg).toNat = k.val)

theorem resumedByKey_resumeIfKey {s : State} (hrun : s.run = .haltedForKey) : ResumedByKey s s.resumeIfKey := by
  cases hlow : lowestPressed s.keys with
  | none =>
    have hkeys := (lowestPressed_none s.keys).1 hlow
    rw [resumeIfKey_none hkeys]
    exact ⟨rfl, fun _ => ⟨hrun, rfl⟩, fun hne => absurd hkeys hne⟩
  | some k =>
    have hne : s.keys ≠ 0 := fun h0 => by
      rw [(lowestPressed_none s.keys).2 h0] at hlow
      cases hlow
    rw [resumeIfKey_some hlow]
    refine ⟨rfl, fun h0 => absurd h0 hne, fun _ => ⟨rfl, k, hlow, ?_⟩⟩
    exact (congrArg BitVec.toNat (s.readV_writeV_self s.haltReg _)).trans (indexByte_toNat k)

/-- A halted core's tick resumes it by the keys it has sampled, and moves the timer besides. -/
theorem resumedByKey_haltedTick (elapsed : Nat) {s : State} (hrun : s.run = .haltedForKey) :
    ResumedByKey s (haltedTick elapsed s) :=
  resumedByKey_resumeIfKey (s := { s with cycleAcc := 0 }) hrun

/-- Settles O48: between ticks a halted core has its tick or looks at the keys it holds; inside one the tick ends, for a batch goes
on from RUNNING only. -/
theorem haltedLeavesOnlyOnKey : Obligations.HaltedLeavesOnlyOnKey := by
  intro s t hrun h
  have hlive := isFatal_of_halted hrun
  refine ⟨fun hbatch hnoReset => ?between, fun elapsed hbatch => ?inside⟩
  case between =>
    cases stepEvent_of_step h with
    | reset image rest _ hi => exact absurd hi (hnoReset image rest)
    | fatalTick _ _ _ hfatal => exact absurd hfatal (ne_true_of_eq_false hlive)
    | beginTick elapsed keys rest =>
      rw [beginTick_of_halted (s := { s with inputs := rest }) hrun]
      exact resumedByKey_haltedTick elapsed (s := { s with inputs := rest, keys := keys }) hrun
    | batchInstr elapsed _ hin => cases hbatch.symm.trans hin
    | endTick elapsed _ hin => cases hbatch.symm.trans hin
    | instr _ hrunning => cases hrun.symm.trans hrunning
    | resume => exact resumedByKey_resumeIfKey hrun
  case inside =>
    have hstop : batchGoes s = false := batchGoes_of_ne (by simp [hrun])
    rw [step_endTick hlive hbatch hstop, endTick, discardIfHalted_halted hrun] at h
    exact (Host.Outcome.next.inj h).symm

/-! ### The end of a run (R286) -/

/-- The word of a jump to an address of 12 bits. -/
theorem encode_jp_of_lt {pc : Word} (h : pc.toNat < 2 ^ 12) : encode (.jp (pc.setWidth 12)) = 0x1000 ||| pc := by
  apply BitVec.eq_of_toNat_eq
  have hpack : (encode (.jp (pc.setWidth 12))).toNat = 0x1000 * 1 + (pc.setWidth 12).toNat := packNnn_toNat 0x1 _
  rw [hpack, BitVec.toNat_setWidth, Nat.mod_eq_of_lt h, BitVec.toNat_or]
  exact Nat.two_pow_add_eq_or_of_lt h 1

/-- Settles O49: the word at `PC` decodes to the jump there, which undoes the advance. -/
theorem selfJumpIsFixedPoint : Obligations.SelfJumpIsFixedPoint := by
  intro s hends hbatch hinputs
  simp only [State.endsWell, Bool.and_eq_true, beq_iff_eq, decide_eq_true_eq] at hends
  obtain ⟨⟨hrun, hpc⟩, hword⟩ := hends
  have hdecode : decode s.cfg.bnnnMode (0x1000 ||| s.pc) = .jp (s.pc.setWidth 12) := by
    rw [← encode_jp_of_lt hpc]
    exact decodeOfEncodeIsIdentity _ _ rfl
  have hback : zextAddress (s.pc.setWidth 12) = s.pc := by
    apply BitVec.eq_of_toNat_eq
    rw [zextAddress_toNat, BitVec.toNat_setWidth, Nat.mod_eq_of_lt hpc]
  rw [step_free hrun hbatch hinputs, instrStep_of_fetch_ok (fetch_of_wordAtPc hword), hdecode]
  show Host.Outcome.next { s with pc := zextAddress (s.pc.setWidth 12) } = _
  rw [hback]

end Sys2Proof.Machine
end

section
/-! SUPPORT. The loader's size check and the empty image (70_reset_and_hazards.md R301 to R304). -/

namespace Sys2Proof.Machine

/-- A reset with an image that does not fit: the state before the image, in FATAL (R303). -/
theorem State.resetWith_oversize {c : Config} {image : List Byte} (h : c.memSize - c.programStart < image.length) :
    State.resetWith c image = (State.initial c).enterFatal .imageTooLarge :=
  if_pos h

/-- The length of the image alone decides whether the core runs after a reset (R301, R303). -/
theorem State.resetWith_run (c : Config) (image : List Byte) : (State.resetWith c image).run =
    if image.length ≤ c.memSize - c.programStart then .running else .fatal .imageTooLarge := by
  by_cases hfits : image.length ≤ c.memSize - c.programStart
  · rw [if_pos hfits, State.resetWith_fits hfits, State.initial_run]
  · rw [if_neg hfits, State.resetWith_oversize (Nat.lt_of_not_le hfits)]
    rfl

/-- The empty image always fits, and under the values of R7 its reset gives the reset state. -/
theorem State.resetWith_documented_nil : State.resetWith Config.documented [] = State.reset :=
  (State.resetWith_fits (Nat.zero_le _)).trans State.initial_documented

/-- Above the font memory reads 0 at reset, so the word at `PROGRAM_START` is 0 (R38). -/
theorem State.wordAtPc_reset : State.reset.wordAtPc = some 0 := by decide

/-- The zero word is outside the catalogue, whatever `Bnnn` means (R86). -/
theorem catalogued_zero (m : BnnnMode) : catalogued m 0 = false := by
  cases m <;> decide

/-- Settles O2: the size check decides between the two resets, and the empty image leaves the UNKNOWN word 0 at `PC`. -/
theorem loaderRejectsOversizeImage : Obligations.LoaderRejectsOversizeImage := by
  obtain ⟨-, -, hunknown⟩ := unknownWordIsNoOp 0 State.reset (catalogued_zero _)
  exact ⟨State.resetWith_run Config.documented, fun _ _ => State.resetWith_oversize, State.resetWith_documented_nil,
    hunknown rfl rfl rfl State.wordAtPc_reset⟩

end Sys2Proof.Machine
end
